-- ==== Sys2Proof/Word.lean ====
section
/-! DEFINITION. The word types of the machine (00_scope R4, R6): registers and addresses are 16 bits, a memory
cell is 8 bits, a register field is 4 bits. -/

namespace Sys2Proof

/-- A register's content, and an address (10_state R10, 00_scope R4 XLEN and ALEN). -/
abbrev Word := BitVec 16

/-- One cell of memory or of the disk (10_state R22, R26). -/
abbrev Byte := BitVec 8

/-- The index of one of the 16 general registers (10_state R10). All 16 values are legal in every register field
(30_encoding R79), so the type holds no index that needs a check. -/
abbrev Reg := Fin 16

end Sys2Proof
end

