-- ==== Sys2Proof/Machine/Bytes.lean ====
section
/-! DEFINITION. The bit fields of a byte and the byte order of a word (00_scope R6, 20_memory R40): the one place
where a word is cut into bytes and put together again, for data, immediates and instruction bytes alike. -/

namespace Sys2Proof.Machine

/-- Bits 7:4 of a byte. -/
def highNibble (b : Byte) : Fin 16 := ⟨b.toNat / 16, by have := b.isLt; omega⟩

/-- Bits 3:0 of a byte. -/
def lowNibble (b : Byte) : Fin 16 := ⟨b.toNat % 16, by omega⟩

/-- The byte with the two given nibbles (30_encoding R82: high * 16 + low). -/
def joinNibbles (high low : Fin 16) : Byte := BitVec.ofNat 8 (high.val * 16 + low.val)

/-- v[15:8]. -/
def highByte (v : Word) : Byte := BitVec.ofNat 8 (v.toNat / 256)

/-- v[7:0]. -/
def lowByte (v : Word) : Byte := BitVec.ofNat 8 (v.toNat % 256)

/-- The big-endian word of two bytes: high * 256 + low (20_memory R41, 30_encoding R75). -/
def joinBytes (high low : Byte) : Word := BitVec.ofNat 16 (high.toNat * 256 + low.toNat)

/-- A byte in a 16-bit register (20_memory R48). UNVERIFIED: zero-extension is the spec's decision D10, log 16. -/
def zeroExtendByte (b : Byte) : Word := BitVec.ofNat 16 b.toNat

end Sys2Proof.Machine
end

