-- ==== Sys2Proof/Config.lean ====
section
/-! DEFINITION. The fixed parameters of the machine (00_scope R4) and what State.reset takes for the open ones
(00_scope R5). The spec leaves no value undefined after which the machine goes on, so there is no free value here. -/

namespace Sys2Proof.Config

/-- MEM_SIZE, the bytes of memory (00_scope R4, 10_state R22). -/
def memSize : Nat := 65536

/-- SECTOR, the bytes of one disk sector (00_scope R4, 10_state R26). -/
def sectorSize : Nat := 512

/-- PC_INDEX: register 15 is the program counter (10_state R14). -/
def pcIndex : Reg := 15

/-- SP_INDEX: register 14 is the implicit pointer of push and pop (10_state R17). -/
def spIndex : Reg := 14

/-- STEP, the default advance of the pc (40_cycle R104). -/
def defaultStep : Nat := 3

/-- NOP_STEP, the advance of the pc by a no-op (40_cycle R105). -/
def nopStep : Nat := 1

/-- KBD_ADDR, the address of the keyboard latch (10_state R24). UNVERIFIED: the spec's decision D21, log 17. Unsafe
if the latch lies elsewhere. -/
def keyboardAddress : Word := 0xFFFF#16

/-- The highest address an instruction can be fetched from (40_cycle R101). UNVERIFIED: the spec's decision D18,
log 15. -/
def lastFetchAddress : Word := 0xFFFD#16

/-- PORT_CHAR, the port that echoes a character (00_scope R4, 43_out R142). -/
def portChar : Word := 1#16

/-- What an unlisted byte of memory or of the disk reads as (10_state R38: memory outside the boot ROM is 0x00 after
reset). UNVERIFIED: the spec's decision D20, log 4. Unsafe if real memory is not zero. -/
def unlistedByte : Byte := 0x00#8

/-- DISK_SECTORS of State.reset. DESIGN CHOICE: the spec leaves the size open (00_scope R5), log 2. Unsafe for a
statement about State.reset alone; State.boot takes any size. -/
def resetDiskSectors : Nat := 65536

end Sys2Proof.Config
end

