-- ==== Sys2Proof/Machine/State.lean ====
section
/-! DEFINITION. The state of the machine as plain data (10_state, head of the file and R10 to R29), the reasons a step
can stop, and the state after reset (10_state R37 to R39, 70_reset R210). -/

namespace Sys2Proof.Machine

/-- The three fatal conditions (60_exceptions R180, R184). -/
inductive HaltCause where
  | unknownOpcode
  | divideByZero
  | pcOutOfBounds
deriving DecidableEq, Repr

/-- The run state (10_state R20). Booting is left out: it completes at once and is never observed (10_state R20,
log 20). -/
inductive RunState where
  | running
  | halted (cause : HaltCause)
  | stopped
deriving DecidableEq, Repr

/-- One event of the output channel: a port and the data sent to it (10_state R28). -/
structure OutEvent where
  port : Word
  data : Word
deriving DecidableEq, Repr

/-- Whose move is next: the CPU takes a cycle (40_cycle R100), the display peripheral writes a byte to the keyboard
latch (60_exceptions R196), or the host quits (60_exceptions R199). DESIGN CHOICE, log 5: the order of the agents,
which the spec leaves free, is data of the state. -/
inductive Turn where
  | cpu
  | key (code : Byte)
  | quit
deriving DecidableEq, Repr

/-- Bytes by address, sparse: strictly rising addresses and no entry equal to what an unlisted address reads as. -/
abbrev Cells := List Host.Cell

/-- The disk: its number of 512-byte sectors and its bytes, byte k of sector s at position s * 512 + k (10_state R26).
DESIGN CHOICE, log 3: the array's length stands beside its bytes. -/
structure Disk where
  sectors : Nat
  cells : Cells
deriving DecidableEq, Repr

/-- The whole architectural state (10_state, head of the file), and the model's own record of who moves next. -/
structure State where
  /-- The 16 general registers; register 15 is the pc, register 14 the stack pointer (10_state R10, R14, R17). -/
  regs : Vector Word 16
  /-- The 65,536 bytes of memory, the keyboard latch among them (10_state R22, R24). -/
  mem : Cells
  /-- The disk (10_state R26). -/
  disk : Disk
  /-- Every event sent by `out` since reset, oldest first (10_state R28). -/
  out : List OutEvent
  /-- The run state (10_state R20). -/
  run : RunState
  /-- The MODEL's own field: the turns of the agents still to come; the CPU moves when the list is empty (log 5). -/
  turns : List Turn
deriving DecidableEq, Repr

/-- Why a step gives no next state. The first three are the cases the spec gives no meaning and tells the model to
treat as a fault (60_exceptions R187); each is raised before any write. -/
inductive Fault where
  /-- A 16-bit access at address 0xFFFF; raised by peek and poke in word mode, pop, push (20_memory R46). Safe. -/
  | wordAtTop
  /-- A mode register that holds neither 0 nor 1; raised by peek and poke (45_peek_poke R153). Safe. -/
  | reservedMode
  /-- A sector index the disk does not have; raised by load and save (46_disk R165). Safe. -/
  | diskSectorOutOfRange
  /-- The machine is halted or stopped and has no cycle; raised by step alone (40_cycle R100). Safe. -/
  | noCycle
deriving DecidableEq, Repr

/-- Why an instruction is refused. -/
inductive Refusal where
  /-- The instruction has no meaning in the model yet; raised by exec's arms alone. Safe. -/
  | notModelled (mnemonic : String)
deriving DecidableEq, Repr

/-- What a meaning answers. -/
abbrev Result := Host.Outcome State Fault Refusal

/-- The machine right after reset (10_state R38, 70_reset R210) with an empty BOOT_ROM and a blank disk. DESIGN
CHOICE, logs 1 and 2: the two open parameters BOOT_ROM and DISK_INIT of 00_scope R5 are empty here; State.boot takes
any. Unsafe for a statement about this one state, which says nothing of a machine with another ROM or disk. -/
def State.reset : State :=
  { regs := Vector.replicate 16 0
    mem := []
    disk := { sectors := Config.resetDiskSectors, cells := [] }
    out := []
    run := .running
    turns := [] }

end Sys2Proof.Machine
end

