-- ==== Sys2Proof/Syntax.lean ====
section
/-! DEFINITION. The instruction set as syntax: the 16 rows of spec/opcode_table.json (30_encoding R80). An
instruction carries the fields its row uses and no others: ignored fields change nothing (30_encoding R76, R84). -/

namespace Sys2Proof

/-- The 16 opcodes, in the order of the table (30_encoding R80). -/
inductive Opcode where
  | nop | mov | movi | add | sub | mul | div | out
  | je | jne | peek | poke | load | save | pop | push
deriving DecidableEq, Repr

/-- One decoded instruction, one constructor for each row of the opcode table. -/
inductive Instr where
  /-- No-op (41_move R120). -/
  | nop
  /-- Register-to-register move: destination, source (41_move R121). -/
  | mov (rA rB : Reg)
  /-- Load-immediate: destination, value (41_move R122). -/
  | movi (rA : Reg) (imm : Word)
  /-- Add: left operand and destination, right operand (42_alu R130). -/
  | add (rA rB : Reg)
  /-- Subtract: left operand and destination, right operand (42_alu R131). -/
  | sub (rA rB : Reg)
  /-- Multiply: left operand and destination, right operand (42_alu R132). -/
  | mul (rA rB : Reg)
  /-- Integer divide: dividend and destination, divisor (42_alu R133). -/
  | div (rA rB : Reg)
  /-- Output: port register, data register (43_out R140). -/
  | out (rA rB : Reg)
  /-- Branch-if-equal: the two compared registers, the target register (44_branch R145). -/
  | je (rA rB rC : Reg)
  /-- Branch-if-not-equal: the two compared registers, the target register (44_branch R146). -/
  | jne (rA rB rC : Reg)
  /-- Load from memory: destination, address register, mode register (45_peek_poke R151). -/
  | peek (rA rB rC : Reg)
  /-- Store to memory: source, address register, mode register (45_peek_poke R152). -/
  | poke (rA rB rC : Reg)
  /-- Disk load: sector-index register, address register (46_disk R160). -/
  | load (rA rB : Reg)
  /-- Disk save: sector-index register, address register (46_disk R162). -/
  | save (rA rB : Reg)
  /-- Stack pop: destination (47_stack R170). -/
  | pop (rA : Reg)
  /-- Stack push: source (47_stack R171). -/
  | push (rA : Reg)
deriving DecidableEq, Repr

/-- The two field layouts of bytes 2 and 3 (30_encoding R72). -/
inductive Format where
  /-- Format R: rB and rC in byte 2, byte 3 ignored. -/
  | registers
  /-- Format I: a 16-bit immediate in bytes 2 and 3. -/
  | immediate
deriving DecidableEq, Repr

end Sys2Proof
end

