-- ==== Sys2Proof/Decode.lean ====
section
/-! DEFINITION. The decoder (30_encoding R70 to R85), total on any bytes, and the encoder from the same opcode map
(30_encoding R82). -/

namespace Sys2Proof

open Sys2Proof.Machine

/-- The opcode map: the opcode at position n has the nibble n (30_encoding R80). UNVERIFIED: the numbering is the
spec's decision D1, kept as one replaceable table (U16), log 10. Unsafe for statements about concrete bytes. -/
def opcodeMap : List Opcode :=
  [.nop, .mov, .movi, .add, .sub, .mul, .div, .out,
   .je, .jne, .peek, .poke, .load, .save, .pop, .push]

/-- The opcode a nibble selects (30_encoding R81). -/
def opcodeOfNibble (n : Fin 16) : Option Opcode := opcodeMap[n.val]?

/-- The nibble of an opcode, read from the same map. -/
def nibbleOfOpcode (o : Opcode) : Fin 16 := Fin.ofNat 16 (opcodeMap.idxOf o)

/-- The layout of bytes 2 and 3 for an opcode (30_encoding R72). -/
def formatOf (o : Opcode) : Format :=
  match o with
  | .movi => .immediate
  | _ => .registers

/-- The four operand fields of an instruction word, all extracted whatever the opcode (40_cycle R103). -/
structure Fields where
  rA : Reg
  rB : Reg
  rC : Reg
  imm16 : Word
deriving DecidableEq, Repr

/-- The fields of the three bytes (30_encoding R71, R73, R75). -/
def fieldsOf (b1 b2 b3 : Byte) : Fields :=
  { rA := lowNibble b1, rB := highNibble b2, rC := lowNibble b2, imm16 := joinBytes b2 b3 }

/-- The instruction of an opcode, with the fields its row of the opcode table uses (30_encoding R80). UNVERIFIED: the
operand roles are the spec's decisions D4 to D8 and D12, log 11; that unused fields are ignored is D3, log 18. -/
def assemble (o : Opcode) (f : Fields) : Instr :=
  match o with
  | .nop => .nop
  | .mov => .mov f.rA f.rB
  | .movi => .movi f.rA f.imm16
  | .add => .add f.rA f.rB
  | .sub => .sub f.rA f.rB
  | .mul => .mul f.rA f.rB
  | .div => .div f.rA f.rB
  | .out => .out f.rA f.rB
  | .je => .je f.rA f.rB f.rC
  | .jne => .jne f.rA f.rB f.rC
  | .peek => .peek f.rA f.rB f.rC
  | .poke => .poke f.rA f.rB f.rC
  | .load => .load f.rA f.rB
  | .save => .save f.rA f.rB
  | .pop => .pop f.rA
  | .push => .push f.rA

/-- Decode one instruction's three bytes; none is the unknown-opcode arm, which no byte reaches while the map is full
(30_encoding R81, R83). -/
def decodeBytes (b1 b2 b3 : Byte) : Option Instr :=
  (opcodeOfNibble (highNibble b1)).map fun o => assemble o (fieldsOf b1 b2 b3)

/-- Why bytes are no instruction. -/
inductive Reject where
  /-- Fewer than the three bytes every instruction has (30_encoding R70). -/
  | truncated
  /-- The opcode nibble is not in the map (60_exceptions R181; unreachable with the full map, 90_conflicts C3). -/
  | unknownOpcode
deriving DecidableEq, Repr

/-- What decoding a stream of bytes gives: the first instruction and the bytes after it, or a rejection by name. -/
inductive Decoded where
  | instr (i : Instr) (rest : List Byte)
  | reject (r : Reject)
deriving DecidableEq, Repr

/-- Decode the first instruction of a stream of bytes. -/
def decode (bytes : List Byte) : Decoded :=
  match bytes with
  | b1 :: b2 :: b3 :: rest =>
    match decodeBytes b1 b2 b3 with
    | some i => .instr i rest
    | none => .reject .unknownOpcode
  | _ => .reject .truncated

/-- The opcode of an instruction. -/
def opcodeOf (i : Instr) : Opcode :=
  match i with
  | .nop => .nop
  | .mov _ _ => .mov
  | .movi _ _ => .movi
  | .add _ _ => .add
  | .sub _ _ => .sub
  | .mul _ _ => .mul
  | .div _ _ => .div
  | .out _ _ => .out
  | .je _ _ _ => .je
  | .jne _ _ _ => .jne
  | .peek _ _ _ => .peek
  | .poke _ _ _ => .poke
  | .load _ _ => .load
  | .save _ _ => .save
  | .pop _ => .pop
  | .push _ => .push

/-- The fields of an instruction, an unused one 0 (30_encoding R76). -/
def fieldsOfInstr (i : Instr) : Fields :=
  match i with
  | .nop => { rA := 0, rB := 0, rC := 0, imm16 := 0 }
  | .movi a v => { rA := a, rB := 0, rC := 0, imm16 := v }
  | .mov a b | .add a b | .sub a b | .mul a b | .div a b | .out a b | .load a b | .save a b =>
    { rA := a, rB := b, rC := 0, imm16 := 0 }
  | .je a b c | .jne a b c | .peek a b c | .poke a b c => { rA := a, rB := b, rC := c, imm16 := 0 }
  | .pop a | .push a => { rA := a, rB := 0, rC := 0, imm16 := 0 }

/-- The three bytes of an instruction (30_encoding R82): op and rA, then rB and rC and a zero byte, or the
immediate. -/
def encode (i : Instr) : List Byte :=
  let f := fieldsOfInstr i
  let byte1 := joinNibbles (nibbleOfOpcode (opcodeOf i)) f.rA
  match formatOf (opcodeOf i) with
  | .registers => [byte1, joinNibbles f.rB f.rC, 0x00#8]
  | .immediate => [byte1, highByte f.imm16, lowByte f.imm16]

/-- Byte 1, 2 and 3 of the 24-bit word W = byte1 ‖ byte2 ‖ byte3 (30_encoding R70). -/
def bytesOfWord (w : Nat) : List Byte :=
  [BitVec.ofNat 8 (w / 65536), BitVec.ofNat 8 (w / 256), BitVec.ofNat 8 w]

/-- The instruction the decoder reads from W, the bits of W numbered as spec/opcode_table.json numbers them: one
24-bit number whose bits 23:16 are byte 1. DEDUCED from 30_encoding R70 and the table's masks, log 24. -/
def decodeTableWord (nbits w : Nat) : Option Instr :=
  match decode (bytesOfWord (w % 2 ^ nbits)) with
  | .instr i _ => some i
  | .reject _ => none

end Sys2Proof
end

