-- ==== Sys2Proof/WellFormed.lean ====
section
/-! DEFINITION. The checks the spec puts on what is supplied from outside: on instruction bytes (which the assembler
emits with every ignored field zero) and on the open parameters (00_scope R5). An Instr needs no check: its fields
have the exact widths of the encoding, and every value of every field is legal (30_encoding R79, R83; log 26). -/

namespace Sys2Proof

/-- The bytes carry 0 in every field the opcode ignores: what the encoder emits (30_encoding R74, R76). -/
def canonicalBytes (b1 b2 b3 : Byte) : Bool :=
  match opcodeOfNibble (Machine.highNibble b1) with
  | none => false
  | some .movi => true
  | some .nop => Machine.lowNibble b1 == 0 && b2 == 0#8 && b3 == 0#8
  | some .je | some .jne | some .peek | some .poke => b3 == 0#8
  | some .pop | some .push => b2 == 0#8 && b3 == 0#8
  | some _ => Machine.lowNibble b2 == 0 && b3 == 0#8

/-- BOOT_ROM fits in memory: 0 <= L <= 65,536 (00_scope R5). -/
def bootRomWellFormed (rom : List Byte) : Bool := decide (rom.length ≤ Config.memSize)

/-- 1 <= DISK_SECTORS <= 65,536 (00_scope R5). -/
def diskSizeWellFormed (sectors : Nat) : Bool := decide (1 ≤ sectors) && decide (sectors ≤ 65536)

/-- The two open echo ports (00_scope R5: PORT_DEC, PORT_HEX). -/
structure EchoPorts where
  dec : Word
  hex : Word
deriving DecidableEq, Repr

/-- PORT_DEC differs from PORT_CHAR, PORT_HEX from both (00_scope R5). -/
def echoPortsWellFormed (p : EchoPorts) : Bool :=
  p.dec != Config.portChar && p.hex != Config.portChar && p.hex != p.dec

end Sys2Proof
end

