-- ==== Sys2Proof/Machine/Ops.lean ====
section
/-! DEFINITION. The named operations over registers, memory, disk and output, the advance of the pc, and the fatal
halt, which is how this machine takes an exception (60_exceptions R185). Every meaning is written over these. -/

namespace Sys2Proof.Machine

/-! ### Sparse bytes -/

/-- The byte at a position. -/
def Cells.read (c : Cells) (a : Nat) : Byte :=
  match c with
  | [] => Config.unlistedByte
  | (k, b) :: rest => if k = a then b else Cells.read rest a

/-- The list without its entries at a position. -/
def Cells.erase (c : Cells) (a : Nat) : Cells := c.filter fun e => decide (e.1 ≠ a)

/-- The list with an entry put before the first greater position. -/
def Cells.insert (c : Cells) (a : Nat) (v : Byte) : Cells :=
  match c with
  | [] => [(a, v)]
  | (k, b) :: rest => if k < a then (k, b) :: Cells.insert rest a v else (a, v) :: (k, b) :: rest

/-- The list after a byte is written; writing what an unlisted position reads as leaves no entry. -/
def Cells.write (c : Cells) (a : Nat) (v : Byte) : Cells :=
  if v = Config.unlistedByte then c.erase a else (c.erase a).insert a v

/-- The bytes at several positions. -/
def Cells.readMany (c : Cells) (positions : List Nat) : List Byte := positions.map (Cells.read c)

/-- The list after several bytes are written, in order. -/
def Cells.writeMany (c : Cells) (entries : List (Nat × Byte)) : Cells :=
  entries.foldl (fun acc e => acc.write e.1 e.2) c

/-- Positions rise strictly from `low`, stay below `bound`, and no entry is what an unlisted position reads as. -/
def Cells.wfFrom (low bound : Nat) (c : Cells) : Bool :=
  match c with
  | [] => true
  | (k, b) :: rest =>
    decide (low ≤ k) && decide (k < bound) && decide (b ≠ Config.unlistedByte) && Cells.wfFrom (k + 1) bound rest

/-- The canonical form of memory. -/
def Memory.wf (m : Cells) : Bool := Cells.wfFrom 0 Config.memSize m

/-- The canonical form of the disk, with a legal size (00_scope R5). -/
def Disk.wf (d : Disk) : Bool :=
  diskSizeWellFormed d.sectors && Cells.wfFrom 0 (d.sectors * Config.sectorSize) d.cells

/-! ### Registers -/

/-- x[r]. -/
def State.reg (s : State) (r : Reg) : Word := s.regs[r.val]

/-- x[r] <- v. Every register is plain storage: none is hardwired, none read-only (10_state R10). -/
def State.setReg (s : State) (r : Reg) (v : Word) : State := { s with regs := s.regs.set r.val v }

/-- The program counter is register 15 (10_state R14). -/
def State.pc (s : State) : Word := s.reg Config.pcIndex

/-- The stack pointer is register 14 (10_state R17). -/
def State.sp (s : State) : Word := s.reg Config.spIndex

/-! ### Memory -/

/-- M[a]; no read has a side effect (20_memory R50). -/
def State.byteAt (s : State) (a : Word) : Byte := Cells.read s.mem a.toNat

/-- M[a] <- v; every byte is writable (10_state R22). -/
def State.setByte (s : State) (a : Word) (v : Byte) : State := { s with mem := Cells.write s.mem a.toNat v }

/-- A word starts at any address but 0xFFFF, whose second byte does not exist (20_memory R45, R46). UNVERIFIED: that
0xFFFF gives no meaning is the spec's decision D11, log 7. -/
def wordFits (a : Word) : Bool := decide (a ≠ 0xFFFF#16)

/-- MemRead(a, 2): big-endian (20_memory R41). Meant for addresses with `wordFits`. -/
def State.wordAt (s : State) (a : Word) : Word := joinBytes (s.byteAt a) (s.byteAt (a + 1#16))

/-- MemWrite(a, 2, v): big-endian (20_memory R42). Meant for addresses with `wordFits`. -/
def State.setWord (s : State) (a : Word) (v : Word) : State :=
  (s.setByte a (highByte v)).setByte (a + 1#16) (lowByte v)

/-! ### Disk -/

/-- The sector index is one the disk has (46_disk R165). UNVERIFIED: that another index gives no meaning is the spec's
decision D13, log 9. -/
def Disk.hasSector (d : Disk) (s : Nat) : Bool := decide (s < d.sectors)

/-- Where the 512 bytes of sector s stand in the disk's bytes (10_state R26). -/
def sectorPositions (s : Nat) : List Nat :=
  (List.range Config.sectorSize).map fun k => s * Config.sectorSize + k

/-- The 512 memory addresses of a transfer: (a + k) mod 65536 (20_memory R49). -/
def windowPositions (a : Word) : List Nat :=
  (List.range Config.sectorSize).map fun k => (a.toNat + k) % Config.memSize

/-- DISK[s][k]. -/
def Disk.byteAt (d : Disk) (s k : Nat) : Byte := Cells.read d.cells (s * Config.sectorSize + k)

/-- The copy of sector n into the window at a (46_disk R160). -/
def State.sectorToMemory (s : State) (n : Nat) (a : Word) : State :=
  { s with
    mem := Cells.writeMany s.mem ((windowPositions a).zip (Cells.readMany s.disk.cells (sectorPositions n))) }

/-- The copy of the window at a into sector n (46_disk R162). -/
def State.memoryToSector (s : State) (n : Nat) (a : Word) : State :=
  { s with
    disk :=
      { s.disk with
        cells :=
          Cells.writeMany s.disk.cells ((sectorPositions n).zip (Cells.readMany s.mem (windowPositions a))) } }

/-! ### Output -/

/-- OUT <- OUT ++ [(port, data)] (43_out R140). -/
def State.emit (s : State) (port data : Word) : State := { s with out := s.out ++ [{ port := port, data := data }] }

/-! ### The fatal halt: taking an exception -/

/-- The spec's own number of a cause, for tables only (60_exceptions R184, log 28). -/
def HaltCause.code (c : HaltCause) : Nat :=
  match c with
  | .unknownOpcode => 0
  | .divideByZero => 1
  | .pcOutOfBounds => 2

/-- A fatal halt (60_exceptions R185): run <- Halted(cause) and nothing else changes; there is no vector, no saved pc
and no mode, and no instruction returns from it (R190). -/
def State.halt (s : State) (cause : HaltCause) : State := { s with run := .halted cause }

/-- What the host receives at a fatal halt (60_exceptions R185). -/
structure HaltRecord where
  cause : HaltCause
  regs : Vector Word 16
  latch : Byte
deriving DecidableEq, Repr

/-- The halt record of a halted state: nothing changes after the halt (60_exceptions R190), so it can be read from the
state at any time (log 23). -/
def State.haltRecord (s : State) : Option HaltRecord :=
  match s.run with
  | .halted c => some { cause := c, regs := s.regs, latch := s.byteAt Config.keyboardAddress }
  | _ => none

/-! ### The end of a cycle -/

/-- Step 7 of the cycle without a jump (40_cycle R100, R104, R105, R108): the pc moves by n, or the machine halts with
the pc as it is. UNVERIFIED: that the pc halts and does not wrap is the spec's decisions D18 and D23, log 15. -/
def State.advance (s : State) (n : Nat) : State :=
  if s.pc.toNat + n ≤ 0xFFFF then s.setReg Config.pcIndex (BitVec.ofNat 16 (s.pc.toNat + n))
  else s.halt .pcOutOfBounds

/-- The end of an instruction that advances the pc by n (40_cycle R104, R105, R107). -/
def finish (n : Nat) (s : State) : Result := .next (s.advance n)

/-- The end of an instruction that may have signalled a jump (40_cycle R106): a jump leaves the pc as written. -/
def finishJump (jumped : Bool) (s : State) : Result :=
  if jumped then .next s else finish Config.defaultStep s

/-- A write of the destination by an instruction of the jump set (40_cycle R106: mov, movi, pop). UNVERIFIED: the jump
set is the spec's decision D17, log 14. -/
def finishAssign (rA : Reg) (v : Word) (s : State) : Result :=
  finishJump (decide (rA = Config.pcIndex)) (s.setReg rA v)

/-- A write of the destination by an instruction outside the jump set: with rA = 15 the advance follows all the same
(40_cycle R107; decision D17, log 14). -/
def finishCompute (rA : Reg) (v : Word) (s : State) : Result := finish Config.defaultStep (s.setReg rA v)

/-! ### The other agents and reset -/

/-- The turns still to come become the given list: how the model records that a turn is used up (log 5). -/
def State.setTurns (s : State) (turns : List Turn) : State := { s with turns := turns }

/-- The display peripheral writes a byte to the latch, and nothing else (60_exceptions R196). -/
def State.keyEvent (s : State) (code : Byte) : State := s.setByte Config.keyboardAddress code

/-- The host ends the run: run <- Stopped, nothing else (60_exceptions R199; decision D24, log 21). -/
def State.quit (s : State) : State := { s with run := .stopped }

/-- IF-RESET (10_state R30, 70_reset R210): the state after reset with the given BOOT_ROM and the given disk (its size
and DISK_INIT). Meant for parameters that are well formed (00_scope R5). -/
def State.boot (rom : List Byte) (disk : Disk) : State :=
  { State.reset with
    mem := Cells.writeMany [] ((List.range rom.length).zip rom)
    disk := disk }

end Sys2Proof.Machine
end

