-- ==== Sys2Proof/Machine/Operands.lean ====
section
/-! DEFINITION. The operand forms and the arithmetic of the instructions: the access mode of peek and poke, and the
ALU's results. There are no flags (10_state R18), so there is no file of flag computations. -/

namespace Sys2Proof.Machine

/-- The two access widths of peek and poke (45_peek_poke R150). -/
inductive Access where
  | word
  | byte
deriving DecidableEq, Repr

/-- The access a mode register selects: 0 a word, 1 a byte, any other value is reserved (45_peek_poke R153). UNVERIFIED:
that reserved modes give no meaning is the spec's decision D9, log 8. -/
def accessOfMode (mode : Word) : Option Access :=
  if mode = 0#16 then some .word else if mode = 1#16 then some .byte else none

/-- Whether the access at an address exists (20_memory R45, R46). -/
def accessFits (w : Access) (ea : Word) : Bool :=
  match w with
  | .word => wordFits ea
  | .byte => true

/-- The value an access reads (45_peek_poke R151, 20_memory R48). -/
def State.loadAt (s : State) (w : Access) (ea : Word) : Word :=
  match w with
  | .word => s.wordAt ea
  | .byte => zeroExtendByte (s.byteAt ea)

/-- The state after an access stores a value; a byte access ignores bits 15:8 (45_peek_poke R152, 20_memory R48). -/
def State.storeAt (s : State) (w : Access) (ea : Word) (v : Word) : State :=
  match w with
  | .word => s.setWord ea v
  | .byte => s.setByte ea (lowByte v)

/-- The exact sum modulo 65,536 (42_alu R130, R135). UNVERIFIED: wrap-around is the spec's decision D15, log 13. -/
def aluAdd (l r : Word) : Word := BitVec.ofNat 16 (l.toNat + r.toNat)

/-- The exact difference modulo 65,536 (42_alu R131, R135). -/
def aluSub (l r : Word) : Word := BitVec.ofNat 16 (l.toNat + 65536 - r.toNat)

/-- The low 16 bits of the exact product (42_alu R132, R135). -/
def aluMul (l r : Word) : Word := BitVec.ofNat 16 (l.toNat * r.toNat)

/-- The unsigned floor quotient (42_alu R133, R136), for a divisor that is not zero. UNVERIFIED: unsigned division is
the spec's decision D16, log 13. -/
def aluDiv (l r : Word) : Word := BitVec.ofNat 16 (l.toNat / r.toNat)

end Sys2Proof.Machine
end

