-- ==== Sys2Proof/Machine/Alu.lean ====
section
/-! DEFINITION. add, sub, mul, div (42_alu R130 to R138). -/

namespace Sys2Proof.Machine

/-- x[rA] <- (x[rA] + x[rB]) mod 65536 (42_alu R130). -/
def execAdd (rA rB : Reg) (s : State) : Result := finishCompute rA (aluAdd (s.reg rA) (s.reg rB)) s

/-- x[rA] <- (x[rA] - x[rB]) mod 65536 (42_alu R131). -/
def execSub (rA rB : Reg) (s : State) : Result := finishCompute rA (aluSub (s.reg rA) (s.reg rB)) s

/-- x[rA] <- (x[rA] * x[rB]) mod 65536 (42_alu R132). -/
def execMul (rA rB : Reg) (s : State) : Result := finishCompute rA (aluMul (s.reg rA) (s.reg rB)) s

/-- x[rA] <- x[rA] div x[rB]; a zero divisor halts before any write (42_alu R133, 60_exceptions R182). -/
def execDiv (rA rB : Reg) (s : State) : Result :=
  if s.reg rB = 0#16 then .next (s.halt .divideByZero)
  else finishCompute rA (aluDiv (s.reg rA) (s.reg rB)) s

end Sys2Proof.Machine
end

