-- ==== Sys2Proof/Machine/Branch.lean ====
section
/-! DEFINITION. je, jne (44_branch R145, R146). -/

namespace Sys2Proof.Machine

/-- A conditional branch: taken, the pc is the target exactly; not taken, the pc moves by 3 (44_branch R147). -/
def branchIf (taken : Bool) (target : Word) (s : State) : Result :=
  if taken then finishJump true (s.setReg Config.pcIndex target) else finishJump false s

/-- Jump to x[rC] if x[rA] = x[rB] (44_branch R145). UNVERIFIED: the operand roles are the spec's decision D7, log 11. -/
def execJe (rA rB rC : Reg) (s : State) : Result := branchIf (decide (s.reg rA = s.reg rB)) (s.reg rC) s

/-- Jump to x[rC] if x[rA] != x[rB] (44_branch R146). -/
def execJne (rA rB rC : Reg) (s : State) : Result := branchIf (decide (s.reg rA ≠ s.reg rB)) (s.reg rC) s

end Sys2Proof.Machine
end

