-- ==== Sys2Proof/Machine/DiskTransfer.lean ====
section
/-! DEFINITION. load, save (46_disk R160, R162, R164, R165). -/

namespace Sys2Proof.Machine

/-- The 512 bytes of sector x[rA] go to memory at x[rB] (46_disk R160). UNVERIFIED: the operand roles are the spec's
decision D12, log 11. -/
def execLoad (rA rB : Reg) (s : State) : Result :=
  if s.disk.hasSector (s.reg rA).toNat then
    finish Config.defaultStep (s.sectorToMemory (s.reg rA).toNat (s.reg rB))
  else .fault .diskSectorOutOfRange

/-- The 512 bytes of memory at x[rB] go to sector x[rA] (46_disk R162). -/
def execSave (rA rB : Reg) (s : State) : Result :=
  if s.disk.hasSector (s.reg rA).toNat then
    finish Config.defaultStep (s.memoryToSector (s.reg rA).toNat (s.reg rB))
  else .fault .diskSectorOutOfRange

end Sys2Proof.Machine
end

