-- ==== Sys2Proof/Machine/Memory.lean ====
section
/-! DEFINITION. peek, poke (45_peek_poke R150 to R153). The mode is examined before the address (60_exceptions R189),
and either fault comes before any write (40_cycle R110). -/

namespace Sys2Proof.Machine

/-- x[rA] <- memory at x[rB], in the width the mode x[rC] selects (45_peek_poke R151). UNVERIFIED: the operand roles are
the spec's decision D8, log 11. -/
def execPeek (rA rB rC : Reg) (s : State) : Result :=
  match accessOfMode (s.reg rC) with
  | none => .fault .reservedMode
  | some w =>
    if accessFits w (s.reg rB) then finishCompute rA (s.loadAt w (s.reg rB)) s else .fault .wordAtTop

/-- Memory at x[rB] <- x[rA], in the width the mode x[rC] selects (45_peek_poke R152). -/
def execPoke (rA rB rC : Reg) (s : State) : Result :=
  match accessOfMode (s.reg rC) with
  | none => .fault .reservedMode
  | some w =>
    if accessFits w (s.reg rB) then finish Config.defaultStep (s.storeAt w (s.reg rB) (s.reg rA))
    else .fault .wordAtTop

end Sys2Proof.Machine
end

