-- ==== Sys2Proof/Machine/Move.lean ====
section
/-! DEFINITION. nop, mov, movi (41_move R120 to R122). -/

namespace Sys2Proof.Machine

/-- No-op: the pc moves by 1, not 3 (41_move R120, 40_cycle R105). -/
def execNop (s : State) : Result := finish Config.nopStep s

/-- x[rA] <- x[rB]; rA = 15 jumps (41_move R121). -/
def execMov (rA rB : Reg) (s : State) : Result := finishAssign rA (s.reg rB) s

/-- x[rA] <- imm16; rA = 15 jumps (41_move R122). -/
def execMovi (rA : Reg) (imm : Word) (s : State) : Result := finishAssign rA imm s

end Sys2Proof.Machine
end

