-- ==== Sys2Proof/Machine/Output.lean ====
section
/-! DEFINITION. out (43_out R140), and the port decoder through which the host reads the output channel (43_out R142,
R143). -/

namespace Sys2Proof.Machine

/-- OUT <- OUT ++ [(x[rA], x[rB])], whatever the port (43_out R140, R143). UNVERIFIED: port in rA and data in rB is the
spec's decision D6, log 11. -/
def execOut (rA rB : Reg) (s : State) : Result := finish Config.defaultStep (s.emit (s.reg rA) (s.reg rB))

/-- What the console does with the data of a port that has a function (43_out R142). -/
inductive Echo where
  | character
  | decimal
  | hexadecimal
deriving DecidableEq, Repr

/-- The port decoder (43_out R142): the function of a port, none for an unassigned one. The decimal and hexadecimal
ports are open parameters and so an argument (00_scope R5, log 19). -/
def echoOfPort (ports : EchoPorts) (port : Word) : Option Echo :=
  if port = Config.portChar then some .character
  else if port = ports.dec then some .decimal
  else if port = ports.hex then some .hexadecimal
  else none

/-- What reaches the console: the data of every event on a port with a function, in order; the host ignores the rest
(43_out R143, U6). How the console renders it is the host's (43_out R142). -/
def State.console (ports : EchoPorts) (s : State) : List (Echo × Word) :=
  s.out.filterMap fun e => (echoOfPort ports e.port).map fun f => (f, e.data)

end Sys2Proof.Machine
end

