-- ==== Sys2Proof/Machine/Stack.lean ====
section
/-! DEFINITION. pop, push (47_stack R170 to R172). UNVERIFIED: the stack discipline (register 14, full-descending, one
big-endian word a slot, pointers modulo 65,536) is the spec's decision D14, log 12. -/

namespace Sys2Proof.Machine

/-- The word at x[14] goes to x[rA] after x[14] moves up by 2; rA = 15 jumps (47_stack R170). -/
def execPop (rA : Reg) (s : State) : Result :=
  if wordFits s.sp then finishAssign rA (s.wordAt s.sp) (s.setReg Config.spIndex (s.sp + 2#16))
  else .fault .wordAtTop

/-- x[rA], read first, is stored at x[14] - 2, which x[14] then holds (47_stack R171). -/
def execPush (rA : Reg) (s : State) : Result :=
  if wordFits (s.sp - 2#16) then
    finish Config.defaultStep ((s.setWord (s.sp - 2#16) (s.reg rA)).setReg Config.spIndex (s.sp - 2#16))
  else .fault .wordAtTop

end Sys2Proof.Machine
end

