-- ==== Sys2Proof/Machine/Dispatch.lean ====
section
/-! DEFINITION. The meaning of every instruction: steps 5 to 7 of the cycle (40_cycle R100), the advance of the pc
included. One arm per constructor of Instr. -/

namespace Sys2Proof.Machine

def exec (i : Instr) (s : State) : Host.Outcome State Fault Refusal :=
  match i with
  | .nop => Sys2Proof.Machine.execNop s
  | .mov rA rB => Sys2Proof.Machine.execMov rA rB s
  | .movi rA imm => Sys2Proof.Machine.execMovi rA imm s
  | .add rA rB => Sys2Proof.Machine.execAdd rA rB s
  | .sub rA rB => Sys2Proof.Machine.execSub rA rB s
  | .mul rA rB => Sys2Proof.Machine.execMul rA rB s
  | .div rA rB => Sys2Proof.Machine.execDiv rA rB s
  | .out rA rB => Sys2Proof.Machine.execOut rA rB s
  | .je rA rB rC => Sys2Proof.Machine.execJe rA rB rC s
  | .jne rA rB rC => Sys2Proof.Machine.execJne rA rB rC s
  | .peek rA rB rC => Sys2Proof.Machine.execPeek rA rB rC s
  | .poke rA rB rC => Sys2Proof.Machine.execPoke rA rB rC s
  | .load rA rB => Sys2Proof.Machine.execLoad rA rB s
  | .save rA rB => Sys2Proof.Machine.execSave rA rB s
  | .pop rA => Sys2Proof.Machine.execPop rA s
  | .push rA => Sys2Proof.Machine.execPush rA s

end Sys2Proof.Machine
end

