-- ==== Sys2Proof/Machine/Cycle.lean ====
section
/-! DEFINITION. The CPU's cycle (40_cycle R100 to R103), the turns of the three agents (40_cycle R112), and the placing
of an instruction where the next cycle fetches it. -/

namespace Sys2Proof.Machine

/-- The fetch bound: all three bytes exist (40_cycle R101). -/
def fetchable (a : Word) : Bool := decide (a.toNat ≤ Config.lastFetchAddress.toNat)

/-- The instruction in the three bytes at an address, lowest address first (30_encoding R70, 40_cycle R102). -/
def State.instrAt (s : State) (a : Word) : Option Instr :=
  decodeBytes (s.byteAt a) (s.byteAt (a + 1#16)) (s.byteAt (a + 2#16))

/-- One cycle of the CPU (40_cycle R100): fetch bound, fetch, decode, handler and advance. The unknown-opcode arm is kept
as the spec asks and no bytes reach it (60_exceptions R181, log 22). -/
def cycle (s : State) : Result :=
  if fetchable s.pc then
    match s.instrAt s.pc with
    | some i => exec i s
    | none => .next (s.halt .unknownOpcode)
  else .next (s.halt .pcOutOfBounds)

/-- One move of the agent whose turn it is (40_cycle R112; log 5). A machine that is not running has no cycle, and no agent
moves it to another state (40_cycle R100, 60_exceptions R190, R199). -/
def takeTurn (s : State) : Result :=
  match s.run with
  | .halted _ | .stopped => .fault .noCycle
  | .running =>
    match s.turns with
    | [] => cycle s
    | .cpu :: rest => cycle (s.setTurns rest)
    | .key code :: rest => .next ((s.setTurns rest).keyEvent code)
    | .quit :: rest => .next (s.setTurns rest).quit

/-- The bytes stored one after another from an address on. -/
def State.placeBytes (s : State) (a : Word) (bytes : List Byte) : State :=
  match bytes with
  | [] => s
  | b :: rest => State.placeBytes (s.setByte a b) (a + 1#16) rest

/-- The instruction W stored at the pc, the CPU's turn next and the machine running. The words above nbits are zero
(log 24). -/
def State.placeWord (s : State) (nbits w : Nat) : State :=
  State.placeBytes { s with run := .running, turns := [] } s.pc (bytesOfWord (w % 2 ^ nbits))

end Sys2Proof.Machine
end

