-- ==== Sys2Proof/Machine/Step.lean ====
section
/-! DEFINITION. One step of the machine: one move of one agent, which is one cycle of the CPU while no other agent is
listed in `turns`. -/

namespace Sys2Proof.Machine

/-- One step (40_cycle R100, R112). -/
def step (s : State) : Host.Outcome State Fault Refusal := takeTurn s

/-- s with the instruction W where step fetches next: the three bytes at the pc, a running machine, the CPU's turn
(log 1, log 24). -/
def State.withFetchWord (s : State) (nbits w : Nat) : State := s.placeWord nbits w

end Sys2Proof.Machine
end

