-- ==== Sys2Proof/Safety.lean ====
section
/-! DEFINITION. The terms claims are stated in: the invariant of the state, what an instruction leaves alone, how the pc
ends a cycle, and how a run ends (60_exceptions R200). -/

namespace Sys2Proof.Safety

open Sys2Proof.Machine

/-- The invariant of the state: memory and disk are in their canonical form and the disk has a legal size. -/
def Invariant (s : State) : Bool := Memory.wf s.mem && Disk.wf s.disk

/-- Every byte of memory reads as before. -/
def SameMemory (s t : State) : Prop := ∀ a : Word, t.byteAt a = s.byteAt a

/-- The disk, the output channel and the turns to come are as before. -/
def SameDevices (s t : State) : Prop := t.disk = s.disk ∧ t.out = s.out ∧ t.turns = s.turns

/-- Every register but the pc is as before. -/
def SameRegisters (s t : State) : Prop := ∀ r : Reg, r ≠ 15 → t.reg r = s.reg r

/-- The end of a cycle without a jump, from the pc the handler left (40_cycle R100 step 7): the pc is n higher and the
run goes on, or, where that leaves 16 bits, the pc stays and the machine has halted. -/
def PcMoves (n : Nat) (handlerPc : Word) (s t : State) : Prop :=
  (handlerPc.toNat + n ≤ 0xFFFF → t.pc.toNat = handlerPc.toNat + n ∧ t.run = s.run) ∧
    (0xFFFF < handlerPc.toNat + n → t.pc = handlerPc ∧ t.run = .halted .pcOutOfBounds)

/-- The end of a cycle with a jump: the pc is exactly the target and the run goes on (40_cycle R106). -/
def PcJumps (target : Word) (s t : State) : Prop := t.pc = target ∧ t.run = s.run

/-- The one register write is x[rA] <- v, by an instruction of the jump set: with rA = 15 the pc is v exactly, else it moves
by 3 (40_cycle R104, R106). Memory, disk, output and turns are as before. -/
def AssignsOnly (rA : Reg) (v : Word) (s t : State) : Prop :=
  (∀ r : Reg, r ≠ 15 → t.reg r = if r = rA then v else s.reg r) ∧
    (if rA = 15 then PcJumps v s t else PcMoves 3 s.pc s t) ∧ SameMemory s t ∧ SameDevices s t

/-- The one register write is x[rA] <- v, by an instruction outside the jump set: with rA = 15 the pc moves by 3 from v
(40_cycle R104, R107). Memory, disk, output and turns are as before. -/
def ComputesOnly (rA : Reg) (v : Word) (s t : State) : Prop :=
  (∀ r : Reg, r ≠ 15 → t.reg r = if r = rA then v else s.reg r) ∧
    PcMoves 3 (if rA = 15 then v else s.pc) s t ∧ SameMemory s t ∧ SameDevices s t

/-- The condition under which the spec gives an instruction no meaning and the model stops with the named fault
(60_exceptions R187, R189: the mode is examined before the address). -/
def StopsBecause (i : Instr) (s : State) (f : Fault) : Prop :=
  match f, i with
  | .wordAtTop, .peek _ rB rC => s.reg rC = 0#16 ∧ s.reg rB = 0xFFFF#16
  | .wordAtTop, .poke _ rB rC => s.reg rC = 0#16 ∧ s.reg rB = 0xFFFF#16
  | .wordAtTop, .pop _ => s.reg 14 = 0xFFFF#16
  | .wordAtTop, .push _ => s.reg 14 = 0x0001#16
  | .reservedMode, .peek _ _ rC => s.reg rC ≠ 0#16 ∧ s.reg rC ≠ 1#16
  | .reservedMode, .poke _ _ rC => s.reg rC ≠ 0#16 ∧ s.reg rC ≠ 1#16
  | .diskSectorOutOfRange, .load rA _ => s.disk.sectors ≤ (s.reg rA).toNat
  | .diskSectorOutOfRange, .save rA _ => s.disk.sectors ≤ (s.reg rA).toNat
  | _, _ => False

/-- The run has ended (60_exceptions R200). -/
def Ended (s : State) : Prop := s.run ≠ .running

/-- The run has ended in one of the two errors; Halted(PcOutOfBounds) is also the architected shutdown and no error in
itself (60_exceptions R183, R200). -/
def EndedInError (s : State) : Prop :=
  s.run = .halted .divideByZero ∨ s.run = .halted .unknownOpcode

/-- The CPU moves next and `rest` is what remains of the turns after that move. -/
def CpuMoves (s : State) (rest : List Turn) : Prop :=
  s.run = .running ∧ (s.turns = .cpu :: rest ∨ s.turns = [] ∧ rest = [])

end Sys2Proof.Safety
end

