-- ==== Sys2Proof/Certificates/Slice0/Obligations.lean ====
section
/-! DEFINITION. The statements for the provers, one definition each. A docstring names the rule of spec/ a statement
formalises; where a clause rests on a point the spec decides and marks as its own, it names the decision ("decision D<n>",
92_eei_decisions.md), and where it rests on a choice of the model, the log entry. -/

open Sys2Proof Sys2Proof.Machine Sys2Proof.Safety

/-! ### Encoding -/

/-- 30_encoding R82, whole: the bytes of format R and of format I; every encoded instruction decodes to itself, whatever
follows it; decoding and encoding again gives the bytes back exactly when their ignored fields are zero. -/
def Obligations.EncoderAndDecoderAreInverse : Prop :=
  (∀ i : Instr,
    (formatOf (opcodeOf i) = .registers →
      encode i = [BitVec.ofNat 8 ((nibbleOfOpcode (opcodeOf i)).val * 16 + (fieldsOfInstr i).rA.val),
        BitVec.ofNat 8 ((fieldsOfInstr i).rB.val * 16 + (fieldsOfInstr i).rC.val), 0x00#8]) ∧
    (formatOf (opcodeOf i) = .immediate →
      encode i = [BitVec.ofNat 8 (0x20 + (fieldsOfInstr i).rA.val),
        BitVec.ofNat 8 ((fieldsOfInstr i).imm16.toNat / 256), BitVec.ofNat 8 (fieldsOfInstr i).imm16.toNat])) ∧
  (∀ (i : Instr) (rest : List Byte), decode (encode i ++ rest) = .instr i rest) ∧
  (∀ (b1 b2 b3 : Byte) (i : Instr), decodeBytes b1 b2 b3 = some i →
    (encode i = [b1, b2, b3] ↔ canonicalBytes b1 b2 b3 = true))

/-- 30_encoding R80, R81, R71 to R76, the opcode table: for each opcode nibble, every operand and every value of the ignored
bits. The numbering is decision D1, the operand positions D4 to D8 and D12, the ignored bits D3. -/
def Obligations.EveryOpcodeNibbleDecodesToItsRow : Prop :=
  ∀ (a b c : Reg) (b2 b3 : Byte),
    let byte1 (op : Nat) : Byte := BitVec.ofNat 8 (op * 16 + a.val)
    let byte2 : Byte := BitVec.ofNat 8 (b.val * 16 + c.val)
    decodeBytes (byte1 0x0) b2 b3 = some .nop ∧
    decodeBytes (byte1 0x1) byte2 b3 = some (.mov a b) ∧
    decodeBytes (byte1 0x2) b2 b3 = some (.movi a (BitVec.ofNat 16 (b2.toNat * 256 + b3.toNat))) ∧
    decodeBytes (byte1 0x3) byte2 b3 = some (.add a b) ∧
    decodeBytes (byte1 0x4) byte2 b3 = some (.sub a b) ∧
    decodeBytes (byte1 0x5) byte2 b3 = some (.mul a b) ∧
    decodeBytes (byte1 0x6) byte2 b3 = some (.div a b) ∧
    decodeBytes (byte1 0x7) byte2 b3 = some (.out a b) ∧
    decodeBytes (byte1 0x8) byte2 b3 = some (.je a b c) ∧
    decodeBytes (byte1 0x9) byte2 b3 = some (.jne a b c) ∧
    decodeBytes (byte1 0xA) byte2 b3 = some (.peek a b c) ∧
    decodeBytes (byte1 0xB) byte2 b3 = some (.poke a b c) ∧
    decodeBytes (byte1 0xC) byte2 b3 = some (.load a b) ∧
    decodeBytes (byte1 0xD) byte2 b3 = some (.save a b) ∧
    decodeBytes (byte1 0xE) b2 b3 = some (.pop a) ∧
    decodeBytes (byte1 0xF) b2 b3 = some (.push a)

/-- 30_encoding R83: every three bytes are a legal instruction, and no step ends in Halted(UnknownOpcode). -/
def Obligations.NoBytesAreAnUnknownOpcode : Prop :=
  (∀ b1 b2 b3 : Byte, ∃ i, decodeBytes b1 b2 b3 = some i) ∧
  (∀ s t : State, step s = .next t → t.run ≠ .halted .unknownOpcode)

/-- Words of 95_test_vectors S2, one of every family, as the opcode table numbers their bits (decision D1). -/
def Obligations.SpecExampleWordsDecode : Prop :=
  decodeTableWord 24 0x000000 = some .nop ∧
  decodeTableWord 24 0x2A1234 = some (.movi 10 0x1234) ∧
  decodeTableWord 24 0x301000 = some (.add 0 1) ∧
  decodeTableWord 24 0x721000 = some (.out 2 1) ∧
  decodeTableWord 24 0x913400 = some (.jne 1 3 4) ∧
  decodeTableWord 24 0xBBCD00 = some (.poke 11 12 13) ∧
  decodeTableWord 24 0xC07000 = some (.load 0 7) ∧
  decodeTableWord 24 0xEF0000 = some (.pop 15)

/-! ### Moves, arithmetic, output -/

/-- 40_cycle R105: the no-op moves the pc by exactly 1, and changes nothing else. -/
def Obligations.NopMovesThePcByExactlyOne : Prop :=
  ∀ s : State, s.pc.toNat ≤ 0xFFFE →
    ∃ t, exec .nop s = .next t ∧ t.pc.toNat = s.pc.toNat + 1 ∧ t.run = s.run ∧
      SameRegisters s t ∧ SameMemory s t ∧ SameDevices s t

/-- 41_move R121, R122: mov and movi write the destination and nothing else; with rA = 15 they are jumps. Operand roles
are decision D5, the jump set D17, the halt of a pc that would leave 16 bits D18. -/
def Obligations.MovesWriteTheDestinationOrJump : Prop :=
  (∀ (rA rB : Reg) (s : State), ∃ t, exec (.mov rA rB) s = .next t ∧ AssignsOnly rA (s.reg rB) s t) ∧
  (∀ (rA : Reg) (imm : Word) (s : State), ∃ t, exec (.movi rA imm) s = .next t ∧ AssignsOnly rA imm s t)

/-- 42_alu R130 to R132, R138: the exact result modulo 65,536 goes to x[rA] and nothing else changes; with rA = 15 the pc
moves by 3 from the result. Operand roles are decision D4, the wrap D15, the jump set D17, the pc's bound D18. -/
def Obligations.AddSubMulWrapModulo65536 : Prop :=
  ∀ (rA rB : Reg) (s : State),
    (∃ t v, exec (.add rA rB) s = .next t ∧ ComputesOnly rA v s t ∧
      v.toNat = ((s.reg rA).toNat + (s.reg rB).toNat) % 65536) ∧
    (∃ t v, exec (.sub rA rB) s = .next t ∧ ComputesOnly rA v s t ∧
      (v.toNat : Int) = ((s.reg rA).toNat - (s.reg rB).toNat : Int) % 65536) ∧
    (∃ t v, exec (.mul rA rB) s = .next t ∧ ComputesOnly rA v s t ∧
      v.toNat = ((s.reg rA).toNat * (s.reg rB).toNat) % 65536)

/-- 42_alu R133, R136: a divisor that is not zero gives the unsigned floor quotient in x[rA], the one q with
q * x[rB] <= x[rA] < (q + 1) * x[rB]. Operand roles are decision D4, unsigned floor division D16, the jump set D17. -/
def Obligations.DivWritesTheUnsignedFloorQuotient : Prop :=
  ∀ (rA rB : Reg) (s : State), s.reg rB ≠ 0#16 →
    ∃ t v, exec (.div rA rB) s = .next t ∧ ComputesOnly rA v s t ∧
      v.toNat * (s.reg rB).toNat ≤ (s.reg rA).toNat ∧ (s.reg rA).toNat < (v.toNat + 1) * (s.reg rB).toNat

/-- 60_exceptions R182: a zero divisor halts with DivideByZero before any write; the halt record holds the register file
as it was, the pc at the div among it. -/
def Obligations.DivByZeroHaltsBeforeAnyWrite : Prop :=
  ∀ (rA rB : Reg) (s : State), s.reg rB = 0#16 →
    ∃ t, exec (.div rA rB) s = .next t ∧ t.run = .halted .divideByZero ∧ (∀ r : Reg, t.reg r = s.reg r) ∧
      SameMemory s t ∧ SameDevices s t ∧
      ∃ record, t.haltRecord = some record ∧ record.cause = .divideByZero ∧ record.regs = s.regs

/-- 42_alu R137: for a divisor that is not zero the quotient is zero exactly when the dividend is less than the divisor, so
that a compiled comparison through div decides the order. Rests on unsigned division (decision D16). -/
def Obligations.DivDecidesUnsignedOrder : Prop :=
  ∀ (rA rB : Reg) (s t : State), rA ≠ 15 → s.reg rB ≠ 0#16 → exec (.div rA rB) s = .next t →
    (t.reg rA = 0#16 ↔ (s.reg rA).toNat < (s.reg rB).toNat)

/-- 43_out R140, R141, R143: one event (x[rA], x[rB]) is appended, whatever the port; no register and no byte of memory
changes; the pc moves by 3. Operand roles and unassigned ports are decision D6. -/
def Obligations.OutAppendsOneEventOnAnyPort : Prop :=
  ∀ (rA rB : Reg) (s : State),
    ∃ t, exec (.out rA rB) s = .next t ∧ t.out = s.out ++ [{ port := s.reg rA, data := s.reg rB }] ∧
      SameRegisters s t ∧ PcMoves 3 s.pc s t ∧ SameMemory s t ∧ t.disk = s.disk ∧ t.turns = s.turns

/-- 43_out R142, R143: what out adds to the console, for any assignment of the two open ports that 00_scope R5 allows: the
data as a character on port 1, as a decimal or hexadecimal number on those ports, nothing on any other (decision D6). -/
def Obligations.OutReachesTheConsoleByItsPort : Prop :=
  ∀ (ports : EchoPorts) (rA rB : Reg) (s t : State), echoPortsWellFormed ports = true →
    exec (.out rA rB) s = .next t →
    (s.reg rA = 1#16 → t.console ports = s.console ports ++ [(.character, s.reg rB)]) ∧
    (s.reg rA = ports.dec → t.console ports = s.console ports ++ [(.decimal, s.reg rB)]) ∧
    (s.reg rA = ports.hex → t.console ports = s.console ports ++ [(.hexadecimal, s.reg rB)]) ∧
    (s.reg rA ≠ 1#16 → s.reg rA ≠ ports.dec → s.reg rA ≠ ports.hex → t.console ports = s.console ports)

/-! ### Branches -/

/-- 44_branch R145, R146: je and jne compare two registers and, taken, leave the pc at x[rC] exactly; not taken, the pc
moves by 3; nothing else changes. Operand roles are decision D7, the jump signal D17, the pc's bound D18. -/
def Obligations.BranchesCompareAndJump : Prop :=
  ∀ (rA rB rC : Reg) (s : State),
    (∃ t, exec (.je rA rB rC) s = .next t ∧ SameRegisters s t ∧ SameMemory s t ∧ SameDevices s t ∧
      (s.reg rA = s.reg rB → PcJumps (s.reg rC) s t) ∧ (s.reg rA ≠ s.reg rB → PcMoves 3 s.pc s t)) ∧
    (∃ t, exec (.jne rA rB rC) s = .next t ∧ SameRegisters s t ∧ SameMemory s t ∧ SameDevices s t ∧
      (s.reg rA ≠ s.reg rB → PcJumps (s.reg rC) s t) ∧ (s.reg rA = s.reg rB → PcMoves 3 s.pc s t))

/-! ### Memory -/

/-- 20_memory R41, R42: a word at any address but 0xFFFF is read and written big-endian, both bytes at once and no other
byte. -/
def Obligations.WordsAreBigEndian : Prop :=
  ∀ (s : State) (a v : Word), a.toNat ≤ 0xFFFE →
    (s.wordAt a).toNat = (s.byteAt a).toNat * 256 + (s.byteAt (a + 1#16)).toNat ∧
    ((s.setWord a v).byteAt a).toNat = v.toNat / 256 ∧
    ((s.setWord a v).byteAt (a + 1#16)).toNat = v.toNat % 256 ∧
    ∀ q : Word, q ≠ a → q ≠ a + 1#16 → (s.setWord a v).byteAt q = s.byteAt q

/-- 45_peek_poke R151: mode 0 reads the big-endian word at x[rB], mode 1 the byte there, zero-extended; only x[rA] changes,
and with rA = 15 the pc moves by 3 from the value read. Operand roles are decision D8, zero-extension D10, the jump set
D17, the exclusion of a word at 0xFFFF D11. -/
def Obligations.PeekReadsTheWordOrByte : Prop :=
  ∀ (rA rB rC : Reg) (s : State),
    (s.reg rC = 0#16 → s.reg rB ≠ 0xFFFF#16 →
      ∃ t v, exec (.peek rA rB rC) s = .next t ∧ ComputesOnly rA v s t ∧
        v.toNat = (s.byteAt (s.reg rB)).toNat * 256 + (s.byteAt (s.reg rB + 1#16)).toNat) ∧
    (s.reg rC = 1#16 →
      ∃ t v, exec (.peek rA rB rC) s = .next t ∧ ComputesOnly rA v s t ∧
        v.toNat = (s.byteAt (s.reg rB)).toNat)

/-- 45_peek_poke R152: mode 0 stores x[rA] big-endian at x[rB], mode 1 its low byte; no other byte and no register changes;
the pc moves by 3. Operand roles are decision D8, the ignored high byte D10, the exclusion of a word at 0xFFFF D11. -/
def Obligations.PokeStoresTheWordOrByte : Prop :=
  ∀ (rA rB rC : Reg) (s : State),
    (s.reg rC = 0#16 → s.reg rB ≠ 0xFFFF#16 →
      ∃ t, exec (.poke rA rB rC) s = .next t ∧ SameRegisters s t ∧ PcMoves 3 s.pc s t ∧ SameDevices s t ∧
        (t.byteAt (s.reg rB)).toNat = (s.reg rA).toNat / 256 ∧
        (t.byteAt (s.reg rB + 1#16)).toNat = (s.reg rA).toNat % 256 ∧
        ∀ q : Word, q ≠ s.reg rB → q ≠ s.reg rB + 1#16 → t.byteAt q = s.byteAt q) ∧
    (s.reg rC = 1#16 →
      ∃ t, exec (.poke rA rB rC) s = .next t ∧ SameRegisters s t ∧ PcMoves 3 s.pc s t ∧ SameDevices s t ∧
        (t.byteAt (s.reg rB)).toNat = (s.reg rA).toNat % 256 ∧
        ∀ q : Word, q ≠ s.reg rB → t.byteAt q = s.byteAt q)

/-- 20_memory R61: a byte poked over byte 1 of the next instruction is what the next cycle fetches, with no fence, in a
running machine with no turn of another agent pending (the list of turns is empty, log 5). Operand roles are decision D8,
the stored low byte D10, the fetch bound D18. -/
def Obligations.AStoreIsSeenByTheNextFetch : Prop :=
  ∀ (rA rB rC : Reg) (s t : State) (i : Instr), s.run = .running → s.turns = [] → s.reg rC = 1#16 →
    s.pc.toNat + 3 ≤ 0xFFFD → s.reg rB = s.pc + 3#16 → exec (.poke rA rB rC) s = .next t →
    decodeBytes (BitVec.ofNat 8 (s.reg rA).toNat) (s.byteAt (s.pc + 4#16)) (s.byteAt (s.pc + 5#16)) = some i →
    step t = exec i t

/-! ### Disk -/

/-- 46_disk R160, 20_memory R49: the 512 bytes of sector x[rA] go to the addresses (x[rB] + k) mod 65536; no other byte, no
register and nothing of the disk changes; the pc moves by 3. Operand roles are decision D12. -/
def Obligations.LoadCopiesTheSectorToTheWindow : Prop :=
  ∀ (rA rB : Reg) (s : State), (s.reg rA).toNat < s.disk.sectors →
    ∃ t, exec (.load rA rB) s = .next t ∧ SameRegisters s t ∧ PcMoves 3 s.pc s t ∧ SameDevices s t ∧
      (∀ k < 512, t.byteAt (BitVec.ofNat 16 ((s.reg rB).toNat + k)) = s.disk.byteAt (s.reg rA).toNat k) ∧
      (∀ q : Word, (∀ k < 512, q.toNat ≠ ((s.reg rB).toNat + k) % 65536) → t.byteAt q = s.byteAt q)

/-- 46_disk R162, 20_memory R49: the 512 bytes at (x[rB] + k) mod 65536 go to sector x[rA]; no other sector, no byte of
memory and no register changes; the pc moves by 3. Operand roles are decision D12. -/
def Obligations.SaveCopiesTheWindowToTheSector : Prop :=
  ∀ (rA rB : Reg) (s : State), (s.reg rA).toNat < s.disk.sectors →
    ∃ t, exec (.save rA rB) s = .next t ∧ SameRegisters s t ∧ PcMoves 3 s.pc s t ∧ SameMemory s t ∧
      t.out = s.out ∧ t.turns = s.turns ∧ t.disk.sectors = s.disk.sectors ∧
      (∀ k < 512, t.disk.byteAt (s.reg rA).toNat k = s.byteAt (BitVec.ofNat 16 ((s.reg rB).toNat + k))) ∧
      (∀ n k, k < 512 → n ≠ (s.reg rA).toNat → t.disk.byteAt n k = s.disk.byteAt n k)

/-- 20_memory R58: a load of a sector after a save to it returns the saved bytes, whatever happened to memory and to the
registers in between and wherever the load puts them. -/
def Obligations.LoadAfterSaveReturnsTheSavedBytes : Prop :=
  ∀ (rA rB rC rD : Reg) (s s' u u' : State), exec (.save rA rB) s = .next s' → u.disk = s'.disk →
    u.reg rC = s.reg rA → exec (.load rC rD) u = .next u' →
    ∀ k < 512, u'.byteAt (BitVec.ofNat 16 ((u.reg rD).toNat + k)) =
      s.byteAt (BitVec.ofNat 16 ((s.reg rB).toNat + k))

/-! ### Stack -/

/-- 47_stack R170: the word at x[14] goes to x[rA] after x[14] moves up by 2 modulo 65,536, so that pop r14 keeps the word;
with rA = 15 it is a jump; memory does not change. The stack discipline is decision D14, the jump set D17, the exclusion of
a word at 0xFFFF D11. -/
def Obligations.PopReadsTheWordAndMovesThePointerUp : Prop :=
  ∀ (rA : Reg) (s : State), s.reg 14 ≠ 0xFFFF#16 →
    ∃ t v, exec (.pop rA) s = .next t ∧
      v.toNat = (s.byteAt (s.reg 14)).toNat * 256 + (s.byteAt (s.reg 14 + 1#16)).toNat ∧
      (∀ r : Reg, r ≠ 15 → r ≠ 14 → t.reg r = if r = rA then v else s.reg r) ∧
      (rA = 14 → t.reg 14 = v) ∧ (rA ≠ 14 → (t.reg 14).toNat = ((s.reg 14).toNat + 2) % 65536) ∧
      (rA = 15 → PcJumps v s t) ∧ (rA ≠ 15 → PcMoves 3 s.pc s t) ∧ SameMemory s t ∧ SameDevices s t

/-- 47_stack R171: x[rA], as it was before the push, is stored big-endian at x[14] - 2 modulo 65,536, which x[14] then
holds; no other byte and no other register changes; the pc moves by 3. The stack discipline is decision D14, the exclusion
of a word at 0xFFFF D11. -/
def Obligations.PushStoresTheWordAndMovesThePointerDown : Prop :=
  ∀ (rA : Reg) (s : State), s.reg 14 ≠ 0x0001#16 →
    ∃ t, exec (.push rA) s = .next t ∧ t.reg 14 = s.reg 14 - 2#16 ∧
      (∀ r : Reg, r ≠ 15 → r ≠ 14 → t.reg r = s.reg r) ∧ PcMoves 3 s.pc s t ∧ SameDevices s t ∧
      (t.byteAt (s.reg 14 - 2#16)).toNat = (s.reg rA).toNat / 256 ∧
      (t.byteAt (s.reg 14 - 1#16)).toNat = (s.reg rA).toNat % 256 ∧
      ∀ q : Word, q ≠ s.reg 14 - 2#16 → q ≠ s.reg 14 - 1#16 → t.byteAt q = s.byteAt q

/-- 47_stack R173: a push and then a pop, with the slot and the pointer left alone in between, give the pushed value back
and the pointer its old value. Rests on the stack discipline, decision D14. -/
def Obligations.PopAfterPushReturnsTheValue : Prop :=
  ∀ (rX rY : Reg) (s t u w : State), rY ≠ 14 → exec (.push rX) s = .next t →
    u.reg 14 = t.reg 14 → u.wordAt (t.reg 14) = t.wordAt (t.reg 14) → exec (.pop rY) u = .next w →
    (rY ≠ 15 → w.reg rY = s.reg rX) ∧ (rY = 15 → w.pc = s.reg rX) ∧ w.reg 14 = s.reg 14

/-! ### Where the model stops, and the halts -/

/-- 60_exceptions R187, R189, R192: an instruction faults exactly where the spec gives it no meaning, under the name the
spec gives the case (decisions D9, D11, D13), and no instruction is ever refused. -/
def Obligations.InstructionsStopExactlyWhereTheSpecSays : Prop :=
  (∀ (i : Instr) (s : State) (f : Fault), exec i s = .fault f ↔ StopsBecause i s f) ∧
  (∀ (i : Instr) (s : State) (r : Refusal), exec i s ≠ .refused r)

/-- 60_exceptions R180 to R183: a running machine that halts in a step does so for one of the causes, under its condition:
a div with a zero divisor, a fetch beyond 0xFFFD, or an advance of the pc beyond 0xFFFF. The bounds are decision D18. -/
def Obligations.EveryHaltHasItsCause : Prop :=
  ∀ (s t : State) (c : HaltCause), step s = .next t → t.run = .halted c →
    (c = .divideByZero ∧ ∃ rA rB, s.instrAt s.pc = some (.div rA rB) ∧ s.reg rB = 0#16) ∨
    (c = .pcOutOfBounds ∧ 0xFFFD < s.pc.toNat) ∨
    (c = .pcOutOfBounds ∧ 0xFFFF < t.pc.toNat + 3)

/-- 60_exceptions R185, R186: the host's record of a halt is the cause, the register file and the latch; and a halt by
DivideByZero or by the fetch bound has changed nothing but the run state. The fetch bound is decision D18. -/
def Obligations.HaltsAreRecordedAndPrecise : Prop :=
  ∀ (s t : State) (c : HaltCause), step s = .next t → t.run = .halted c →
    t.haltRecord = some { cause := c, regs := t.regs, latch := t.byteAt 0xFFFF#16 } ∧
    (c = .divideByZero ∨ 0xFFFD < s.pc.toNat → t.regs = s.regs ∧ SameMemory s t ∧ t.disk = s.disk ∧ t.out = s.out)

/-- 60_exceptions R190: a halted machine has no cycle and no agent moves it on: there is no next state, and the model says
so by the fault noCycle (log 6). -/
def Obligations.AHaltedMachineNeverMoves : Prop :=
  ∀ (s : State) (c : HaltCause), s.run = .halted c → (∀ t, step s ≠ .next t) ∧ step s = .fault .noCycle

/-! ### The cycle and the other agents -/

/-- 40_cycle R100 to R103: when it is the CPU's turn and the three bytes at the pc decode to an instruction, the step is
that instruction's meaning, at the state with the turn used up. The turns are the model's, log 5; the fetch bound is
decision D18. -/
def Obligations.AStepRunsTheDecodedInstruction : Prop :=
  ∀ (s : State) (rest : List Turn) (i : Instr), CpuMoves s rest → s.pc.toNat ≤ 0xFFFD →
    decodeBytes (s.byteAt s.pc) (s.byteAt (s.pc + 1#16)) (s.byteAt (s.pc + 2#16)) = some i →
    step s = exec i { s with turns := rest }

/-- 40_cycle R101: a pc above 0xFFFD halts the machine at the fetch, and nothing else changes (decision D18). -/
def Obligations.AFetchOutOfBoundsHalts : Prop :=
  ∀ (s : State) (rest : List Turn), CpuMoves s rest → 0xFFFD < s.pc.toNat →
    ∃ t, step s = .next t ∧ t.run = .halted .pcOutOfBounds ∧ (∀ r : Reg, t.reg r = s.reg r) ∧
      SameMemory s t ∧ t.disk = s.disk ∧ t.out = s.out

/-- 60_exceptions R196, 10_state R33: the display peripheral's turn writes its byte to 0xFFFF, whatever byte it is, and
changes no other byte, no register, no disk, no output and not the run state (decisions D21, D22; log 5). -/
def Obligations.AKeyWritesOnlyTheLatch : Prop :=
  ∀ (s : State) (code : Byte) (rest : List Turn), s.run = .running → s.turns = .key code :: rest →
    ∃ t, step s = .next t ∧ t.byteAt 0xFFFF#16 = code ∧ (∀ q : Word, q ≠ 0xFFFF#16 → t.byteAt q = s.byteAt q) ∧
      (∀ r : Reg, t.reg r = s.reg r) ∧ t.disk = s.disk ∧ t.out = s.out ∧ t.run = .running ∧ t.turns = rest

/-- 60_exceptions R199: the host's quit stops the run, changes nothing else, and is final (decision D24; log 5). -/
def Obligations.AQuitStopsTheRunForGood : Prop :=
  ∀ (s : State) (rest : List Turn), s.run = .running → s.turns = .quit :: rest →
    ∃ t, step s = .next t ∧ t.run = .stopped ∧ (∀ r : Reg, t.reg r = s.reg r) ∧ SameMemory s t ∧
      t.disk = s.disk ∧ t.out = s.out ∧ step t = .fault .noCycle

/-- 41_move R120, 70_reset R216 H1: over memory that is all zero a running machine with no turn of another agent pending
(its list of turns is empty, so that every move is the CPU's: the model's choice, log 5) slides upward one byte a cycle,
whatever its registers hold, for as many cycles as stay within the fetch bound. With a key or a quit pending nothing is
said. Rests on opcode 0 being the no-op (decision D1) and on the fetch bound (decision D18). -/
def Obligations.ZeroedMemoryIsANoopSlide : Prop :=
  ∀ (s : State) (k : Nat), s.run = .running → s.turns = [] → (∀ a : Word, s.byteAt a = 0#8) →
    s.pc.toNat + k ≤ 0xFFFE →
    ∃ t, Sys2Proof.core.run k s = .next t ∧ t.pc.toNat = s.pc.toNat + k ∧ t.run = .running ∧
      SameRegisters s t ∧ SameMemory s t ∧ SameDevices s t

/-! ### Reset -/

/-- 10_state R37: after reset the registers are zero and the boot ROM stands at the base of memory, for every boot ROM that
fits and every disk. -/
def Obligations.ResetZeroesRegistersAndCopiesTheRom : Prop :=
  ∀ (rom : List Byte) (disk : Disk), bootRomWellFormed rom = true →
    (∀ r : Reg, (State.boot rom disk).reg r = 0#16) ∧
    (∀ (k : Nat) (h : k < rom.length), (State.boot rom disk).byteAt (BitVec.ofNat 16 k) = rom[k])

/-- 10_state R38: the rest of the reset state: memory beyond the ROM is zero (decision D20), the disk is the one supplied
(D13), no output (D6), running; and State.reset is the case of an empty ROM (log 1). -/
def Obligations.ResetLeavesTheRestOfMemoryZero : Prop :=
  (∀ (rom : List Byte) (disk : Disk), bootRomWellFormed rom = true →
    (∀ a : Word, rom.length ≤ a.toNat → (State.boot rom disk).byteAt a = 0#8) ∧
    (State.boot rom disk).disk = disk ∧ (State.boot rom disk).out = [] ∧ (State.boot rom disk).run = .running) ∧
  State.reset = State.boot [] State.reset.disk

/-- The invariant holds after reset, for every boot ROM that fits and every disk in canonical form, State.reset's among
them. -/
def Obligations.ResetMeetsTheInvariant : Prop :=
  (∀ (rom : List Byte) (disk : Disk), bootRomWellFormed rom = true → disk.wf = true → Invariant (State.boot rom disk) = true) ∧
  Invariant State.reset = true

/-! ### Rules over all instructions -/

/-- Every step, of any agent, from any state that meets the invariant leads to one that meets it: memory and disk stay in
their canonical form (10_state R11, R22, R26: bytes at existing addresses only). -/
def Obligations.EveryStepKeepsTheInvariant : Prop :=
  ∀ s t : State, Invariant s = true → step s = .next t → Invariant t = true

/-- 10_state R28, 60_exceptions R200: the output channel holds every event since reset in order: no step removes or changes
one, and one step adds at most one. -/
def Obligations.OutputIsAppendOnly : Prop :=
  ∀ s t : State, step s = .next t → t.out = s.out ∨ ∃ e, t.out = s.out ++ [e]

/-- 10_state R26: the number of sectors is the disk's own and no step of any agent changes it (log 3). -/
def Obligations.TheDiskKeepsItsSize : Prop :=
  ∀ s t : State, step s = .next t → t.disk.sectors = s.disk.sectors

/-- 10_state R27, 20_memory R47: each space is written by its own instructions alone: memory by poke, push and load, the
disk by save, the output channel by out, and no instruction touches the turns of the agents. -/
def Obligations.EachSpaceIsWrittenByItsOwnInstructions : Prop :=
  ∀ (i : Instr) (s t : State), exec i s = .next t →
    (opcodeOf i ∉ [.poke, .push, .load] → t.mem = s.mem) ∧ (opcodeOf i ≠ .save → t.disk = s.disk) ∧
    (opcodeOf i ≠ .out → t.out = s.out) ∧ t.turns = s.turns
end

