-- ==== Sys2Proof/Laws/Bytes.lean ====
section
/-! SUPPORT. The byte and nibble operations undo one another. -/

namespace Sys2Proof.Machine

@[simp] theorem highNibble_joinNibbles (h l : Fin 16) : highNibble (joinNibbles h l) = h := by
  simp only [highNibble, joinNibbles, BitVec.toNat_ofNat, Fin.ext_iff]; omega

@[simp] theorem lowNibble_joinNibbles (h l : Fin 16) : lowNibble (joinNibbles h l) = l := by
  simp only [lowNibble, joinNibbles, BitVec.toNat_ofNat, Fin.ext_iff]; omega

@[simp] theorem joinNibbles_nibbles (b : Byte) : joinNibbles (highNibble b) (lowNibble b) = b := by
  apply BitVec.eq_of_toNat_eq
  simp only [highNibble, lowNibble, joinNibbles, BitVec.toNat_ofNat]
  have := b.isLt
  omega

@[simp] theorem joinNibbles_zero : joinNibbles 0 0 = 0#8 := by decide

theorem joinBytes_toNat (h l : Byte) : (joinBytes h l).toNat = h.toNat * 256 + l.toNat := by
  simp only [joinBytes, BitVec.toNat_ofNat]
  have := h.isLt
  have := l.isLt
  omega

theorem highByte_toNat (v : Word) : (highByte v).toNat = v.toNat / 256 := by
  simp only [highByte, BitVec.toNat_ofNat]
  have := v.isLt
  omega

theorem lowByte_toNat (v : Word) : (lowByte v).toNat = v.toNat % 256 := by
  simp only [lowByte, BitVec.toNat_ofNat]
  omega

theorem zeroExtendByte_toNat (b : Byte) : (zeroExtendByte b).toNat = b.toNat := by
  simp only [zeroExtendByte, BitVec.toNat_ofNat]
  have := b.isLt
  omega

@[simp] theorem joinBytes_bytes (v : Word) : joinBytes (highByte v) (lowByte v) = v := by
  apply BitVec.eq_of_toNat_eq
  rw [joinBytes_toNat, highByte_toNat, lowByte_toNat]
  omega

@[simp] theorem highByte_joinBytes (h l : Byte) : highByte (joinBytes h l) = h := by
  apply BitVec.eq_of_toNat_eq
  rw [highByte_toNat, joinBytes_toNat]
  have := l.isLt
  omega

@[simp] theorem lowByte_joinBytes (h l : Byte) : lowByte (joinBytes h l) = l := by
  apply BitVec.eq_of_toNat_eq
  rw [lowByte_toNat, joinBytes_toNat]
  have := l.isLt
  omega

end Sys2Proof.Machine
end

