-- ==== Sys2Proof/Laws/Cells.lean ====
section
/-! SUPPORT. The sparse bytes: a read after a write, the canonical form kept by every write, and that two lists in
canonical form with the same reads are the same list. -/

namespace Sys2Proof.Machine

theorem Cells.read_erase (c : Cells) (a q : Nat) :
    (c.erase a).read q = if q = a then Config.unlistedByte else c.read q := by
  induction c with
  | nil => simp [Cells.erase, Cells.read]
  | cons e rest ih =>
    obtain ⟨k, b⟩ := e
    simp only [Cells.erase] at ih ⊢
    by_cases hk : k = a
    · subst hk
      simp only [List.filter_cons, ne_eq, not_true_eq_false, decide_false, Bool.false_eq_true, if_false, ih, Cells.read]
      by_cases hq : q = k
      · simp [hq]
      · simp [hq, Ne.symm hq]
    · simp only [List.filter_cons, ne_eq, hk, not_false_eq_true, decide_true, if_true, Cells.read, ih]
      by_cases hq : k = q
      · simp [hq, hq ▸ hk]
      · simp [hq]

theorem Cells.read_insert (c : Cells) (a q : Nat) (v : Byte)
    (habs : ∀ e ∈ c, e.1 ≠ a) : (c.insert a v).read q = if q = a then v else c.read q := by
  induction c with
  | nil => simp [Cells.insert, Cells.read, eq_comm]
  | cons e rest ih =>
    obtain ⟨k, b⟩ := e
    have hka : k ≠ a := habs (k, b) (by simp)
    have ih := ih fun e he => habs e (by simp [he])
    simp only [Cells.insert]
    split
    · simp only [Cells.read, ih]
      by_cases hq : k = q
      · simp [hq, hq ▸ hka]
      · simp [hq]
    · simp only [Cells.read]
      by_cases hq : a = q
      · simp [hq]
      · simp [hq, Ne.symm hq]

theorem Cells.absent_of_erase (c : Cells) (a : Nat) : ∀ e ∈ c.erase a, e.1 ≠ a := by
  intro e he
  simp only [Cells.erase, List.mem_filter, decide_eq_true_eq] at he
  exact he.2

/-- A read after a write, for every list: the value written at that position, as before elsewhere. -/
theorem Cells.read_write (c : Cells) (a q : Nat) (v : Byte) :
    (c.write a v).read q = if q = a then v else c.read q := by
  unfold Cells.write
  split
  · rename_i hv
    rw [Cells.read_erase, hv]
  · rw [Cells.read_insert _ _ _ _ (c.absent_of_erase a), Cells.read_erase]
    split <;> rfl

/-! ### Several bytes -/

/-- Writes elsewhere leave a position alone. -/
theorem Cells.read_writeMany_other (es : List (Nat × Byte)) (c : Cells) (q : Nat) (h : ∀ e ∈ es, e.1 ≠ q) :
    (c.writeMany es).read q = c.read q := by
  induction es generalizing c with
  | nil => rfl
  | cons e rest ih =>
    have : (c.writeMany (e :: rest)) = (c.write e.1 e.2).writeMany rest := rfl
    rw [this, ih _ fun x hx => h x (by simp [hx]), Cells.read_write]
    simp [(h e (by simp)).symm]

/-- Writes to distinct positions give each its own value. -/
theorem Cells.read_writeMany_mem (es : List (Nat × Byte)) (c : Cells) (hnd : (es.map Prod.fst).Nodup)
    (e : Nat × Byte) (he : e ∈ es) : (c.writeMany es).read e.1 = e.2 := by
  induction es generalizing c with
  | nil => cases he
  | cons d rest ih =>
    have hstep : (c.writeMany (d :: rest)) = (c.write d.1 d.2).writeMany rest := rfl
    rw [List.map_cons, List.nodup_cons] at hnd
    rw [hstep]
    rcases List.mem_cons.mp he with rfl | he
    · rw [Cells.read_writeMany_other, Cells.read_write, if_pos rfl]
      intro x hx hxe
      exact hnd.1 (List.mem_map.mpr ⟨x, hx, hxe⟩)
    · exact ih _ hnd.2 he

/-! ### The canonical form -/

theorem Cells.wfFrom_mono {low low' bound : Nat} (h : low ≤ low') (c : Cells) :
    Cells.wfFrom low' bound c = true → Cells.wfFrom low bound c = true := by
  cases c with
  | nil => simp [Cells.wfFrom]
  | cons e rest =>
    simp only [Cells.wfFrom, Bool.and_eq_true, decide_eq_true_eq]
    rintro ⟨⟨⟨h1, h2⟩, h3⟩, h4⟩
    exact ⟨⟨⟨h.trans h1, h2⟩, h3⟩, h4⟩

theorem Cells.wfFrom_erase {low bound : Nat} (a : Nat) (c : Cells) :
    Cells.wfFrom low bound c = true → Cells.wfFrom low bound (c.erase a) = true := by
  induction c generalizing low with
  | nil => exact id
  | cons e rest ih =>
    obtain ⟨k, b⟩ := e
    simp only [Cells.erase] at ih ⊢
    simp only [Cells.wfFrom, Bool.and_eq_true, decide_eq_true_eq, List.filter_cons]
    rintro ⟨⟨⟨h1, h2⟩, h3⟩, h4⟩
    split
    · simp only [Cells.wfFrom, Bool.and_eq_true, decide_eq_true_eq]
      exact ⟨⟨⟨h1, h2⟩, h3⟩, ih h4⟩
    · exact Cells.wfFrom_mono (by omega) _ (ih h4)

theorem Cells.wfFrom_insert {low bound a : Nat} {v : Byte} (c : Cells) (hlow : low ≤ a) (hb : a < bound)
    (hv : v ≠ Config.unlistedByte) (habs : ∀ e ∈ c, e.1 ≠ a) :
    Cells.wfFrom low bound c = true → Cells.wfFrom low bound (c.insert a v) = true := by
  induction c generalizing low with
  | nil => simp [Cells.insert, Cells.wfFrom, hlow, hb, hv]
  | cons e rest ih =>
    obtain ⟨k, b⟩ := e
    have hka : k ≠ a := habs (k, b) (by simp)
    simp only [Cells.wfFrom, Cells.insert, Bool.and_eq_true, decide_eq_true_eq]
    rintro ⟨⟨⟨h1, h2⟩, h3⟩, h4⟩
    split
    · simp only [Cells.wfFrom, Bool.and_eq_true, decide_eq_true_eq]
      exact ⟨⟨⟨h1, h2⟩, h3⟩, ih (by omega) (fun e he => habs e (by simp [he])) h4⟩
    · simp only [Cells.wfFrom, Bool.and_eq_true, decide_eq_true_eq]
      exact ⟨⟨⟨hlow, hb⟩, hv⟩, ⟨⟨by omega, h2⟩, h3⟩, h4⟩

/-- A write keeps the canonical form. -/
theorem Cells.wfFrom_write {bound : Nat} (c : Cells) (a : Nat) (v : Byte) (hb : a < bound)
    (h : Cells.wfFrom 0 bound c = true) : Cells.wfFrom 0 bound (c.write a v) = true := by
  unfold Cells.write
  split
  · exact Cells.wfFrom_erase a c h
  · exact Cells.wfFrom_insert _ (Nat.zero_le _) hb ‹_› (c.absent_of_erase a) (Cells.wfFrom_erase a c h)

/-- Several writes keep the canonical form. -/
theorem Cells.wfFrom_writeMany {bound : Nat} (es : List (Nat × Byte)) (c : Cells) (hb : ∀ e ∈ es, e.1 < bound)
    (h : Cells.wfFrom 0 bound c = true) : Cells.wfFrom 0 bound (c.writeMany es) = true := by
  induction es generalizing c with
  | nil => exact h
  | cons e rest ih =>
    exact ih _ (fun x hx => hb x (by simp [hx])) (c.wfFrom_write e.1 e.2 (hb e (by simp)) h)

theorem Cells.read_below {low bound : Nat} (c : Cells) (h : Cells.wfFrom low bound c = true) (q : Nat) (hq : q < low) :
    c.read q = Config.unlistedByte := by
  induction c generalizing low with
  | nil => rfl
  | cons e rest ih =>
    obtain ⟨k, b⟩ := e
    simp only [Cells.wfFrom, Bool.and_eq_true, decide_eq_true_eq] at h
    have hk : k ≠ q := by omega
    simp only [Cells.read, hk, if_false]
    exact ih h.2 (by omega)

/-- Two lists in canonical form that read alike everywhere are the same list: equal memories are equal data. -/
theorem Cells.eq_of_read_eq {low bound : Nat} (c d : Cells) (hc : Cells.wfFrom low bound c = true)
    (hd : Cells.wfFrom low bound d = true) (h : ∀ q, c.read q = d.read q) : c = d := by
  induction c generalizing low d with
  | nil =>
    cases d with
    | nil => rfl
    | cons e rest =>
      obtain ⟨k, b⟩ := e
      simp only [Cells.wfFrom, Bool.and_eq_true, decide_eq_true_eq] at hd
      have := h k
      simp only [Cells.read, if_true] at this
      exact absurd this.symm hd.1.2
  | cons e rest ih =>
    obtain ⟨k, b⟩ := e
    have hc' := hc
    simp only [Cells.wfFrom, Bool.and_eq_true, decide_eq_true_eq] at hc
    cases d with
    | nil =>
      have := h k
      simp only [Cells.read, if_true] at this
      exact absurd this hc.1.2
    | cons e' rest' =>
      obtain ⟨k', b'⟩ := e'
      have hd' := hd
      simp only [Cells.wfFrom, Bool.and_eq_true, decide_eq_true_eq] at hd
      have hkk : k = k' := by
        by_contra hne
        rcases Nat.lt_or_gt_of_ne hne with hlt | hlt
        · have := h k
          simp only [Cells.read, if_true, Ne.symm hne, if_false] at this
          rw [Cells.read_below rest' hd.2 k (by omega)] at this
          exact hc.1.2 this
        · have := h k'
          simp only [Cells.read, if_true, hne, if_false] at this
          rw [Cells.read_below rest hc.2 k' (by omega)] at this
          exact hd.1.2 this.symm
      subst hkk
      have hb := h k
      simp only [Cells.read, if_true] at hb
      subst hb
      rw [ih rest' hc.2 hd.2]
      intro q
      by_cases hq : q ≤ k
      · rw [Cells.read_below rest hc.2 q (by omega), Cells.read_below rest' hd.2 q (by omega)]
      · have := h q
        have hne : k ≠ q := by omega
        simpa only [Cells.read, hne, if_false] using this

end Sys2Proof.Machine
end

