-- ==== Sys2Proof/Laws/Decode.lean ====
section
/-! SUPPORT. The opcode map read in both directions, and the fields of bytes put together from nibbles. -/

namespace Sys2Proof

open Sys2Proof.Machine

/-- No two rows of the opcode map share an opcode. -/
theorem opcodeMap_nodup : opcodeMap.Nodup := by decide

/-- Every nibble has an opcode: the map is full (30_encoding R83). -/
theorem opcodeOfNibble_isSome (n : Fin 16) : (opcodeOfNibble n).isSome = true := by
  revert n; decide

@[simp] theorem opcodeOfNibble_nibbleOfOpcode (o : Opcode) : opcodeOfNibble (nibbleOfOpcode o) = some o := by
  cases o <;> decide

theorem nibbleOfOpcode_of_some {n : Fin 16} {o : Opcode} (h : opcodeOfNibble n = some o) : nibbleOfOpcode o = n := by
  revert o; revert n; decide

theorem fieldsOf_registers (h : Fin 16) (a b c : Reg) (b3 : Byte) :
    fieldsOf (joinNibbles h a) (joinNibbles b c) b3 =
      { rA := a, rB := b, rC := c, imm16 := joinBytes (joinNibbles b c) b3 } := by
  simp only [fieldsOf, lowNibble_joinNibbles, highNibble_joinNibbles]

theorem decodeBytes_of_opcode {b1 : Byte} {o : Opcode} (h : opcodeOfNibble (highNibble b1) = some o) (b2 b3 : Byte) :
    decodeBytes b1 b2 b3 = some (assemble o (fieldsOf b1 b2 b3)) := by
  simp only [decodeBytes, h, Option.map_some]

end Sys2Proof
end

