-- ==== Sys2Proof/Laws/State.lean ====
section
/-! SUPPORT. What each update of the state does to each field, and what each register read gives after it. -/

namespace Sys2Proof.Machine

section fields
variable (s : State) (r : Reg) (v : Word) (a : Word) (b : Byte) (c : HaltCause) (n : Nat)

@[simp] theorem setReg_mem : (s.setReg r v).mem = s.mem := rfl
@[simp] theorem setReg_disk : (s.setReg r v).disk = s.disk := rfl
@[simp] theorem setReg_out : (s.setReg r v).out = s.out := rfl
@[simp] theorem setReg_run : (s.setReg r v).run = s.run := rfl
@[simp] theorem setReg_turns : (s.setReg r v).turns = s.turns := rfl

@[simp] theorem setByte_regs : (s.setByte a b).regs = s.regs := rfl
@[simp] theorem setByte_disk : (s.setByte a b).disk = s.disk := rfl
@[simp] theorem setByte_out : (s.setByte a b).out = s.out := rfl
@[simp] theorem setByte_run : (s.setByte a b).run = s.run := rfl
@[simp] theorem setByte_turns : (s.setByte a b).turns = s.turns := rfl

@[simp] theorem setWord_regs : (s.setWord a v).regs = s.regs := rfl
@[simp] theorem setWord_disk : (s.setWord a v).disk = s.disk := rfl
@[simp] theorem setWord_out : (s.setWord a v).out = s.out := rfl
@[simp] theorem setWord_run : (s.setWord a v).run = s.run := rfl
@[simp] theorem setWord_turns : (s.setWord a v).turns = s.turns := rfl

@[simp] theorem halt_regs : (s.halt c).regs = s.regs := rfl
@[simp] theorem halt_mem : (s.halt c).mem = s.mem := rfl
@[simp] theorem halt_disk : (s.halt c).disk = s.disk := rfl
@[simp] theorem halt_out : (s.halt c).out = s.out := rfl
@[simp] theorem halt_run : (s.halt c).run = .halted c := rfl
@[simp] theorem halt_turns : (s.halt c).turns = s.turns := rfl

@[simp] theorem emit_regs : (s.emit a v).regs = s.regs := rfl
@[simp] theorem emit_mem : (s.emit a v).mem = s.mem := rfl
@[simp] theorem emit_disk : (s.emit a v).disk = s.disk := rfl
@[simp] theorem emit_out : (s.emit a v).out = s.out ++ [{ port := a, data := v }] := rfl
@[simp] theorem emit_run : (s.emit a v).run = s.run := rfl
@[simp] theorem emit_turns : (s.emit a v).turns = s.turns := rfl

@[simp] theorem sectorToMemory_regs : (s.sectorToMemory n a).regs = s.regs := by simp only [State.sectorToMemory]
@[simp] theorem sectorToMemory_disk : (s.sectorToMemory n a).disk = s.disk := by simp only [State.sectorToMemory]
@[simp] theorem sectorToMemory_out : (s.sectorToMemory n a).out = s.out := by simp only [State.sectorToMemory]
@[simp] theorem sectorToMemory_run : (s.sectorToMemory n a).run = s.run := by simp only [State.sectorToMemory]
@[simp] theorem sectorToMemory_turns : (s.sectorToMemory n a).turns = s.turns := by simp only [State.sectorToMemory]

@[simp] theorem memoryToSector_regs : (s.memoryToSector n a).regs = s.regs := by simp only [State.memoryToSector]
@[simp] theorem memoryToSector_mem : (s.memoryToSector n a).mem = s.mem := by simp only [State.memoryToSector]
@[simp] theorem memoryToSector_sectors : (s.memoryToSector n a).disk.sectors = s.disk.sectors := by simp only [State.memoryToSector]
@[simp] theorem memoryToSector_out : (s.memoryToSector n a).out = s.out := by simp only [State.memoryToSector]
@[simp] theorem memoryToSector_run : (s.memoryToSector n a).run = s.run := by simp only [State.memoryToSector]
@[simp] theorem memoryToSector_turns : (s.memoryToSector n a).turns = s.turns := by simp only [State.memoryToSector]

@[simp] theorem keyEvent_regs : (s.keyEvent b).regs = s.regs := rfl
@[simp] theorem keyEvent_disk : (s.keyEvent b).disk = s.disk := rfl
@[simp] theorem keyEvent_out : (s.keyEvent b).out = s.out := rfl
@[simp] theorem keyEvent_run : (s.keyEvent b).run = s.run := rfl
@[simp] theorem keyEvent_turns : (s.keyEvent b).turns = s.turns := rfl

@[simp] theorem quit_regs : s.quit.regs = s.regs := rfl
@[simp] theorem quit_mem : s.quit.mem = s.mem := rfl
@[simp] theorem quit_disk : s.quit.disk = s.disk := rfl
@[simp] theorem quit_out : s.quit.out = s.out := rfl
@[simp] theorem quit_run : s.quit.run = .stopped := rfl
@[simp] theorem quit_turns : s.quit.turns = s.turns := rfl

section turns
variable (l : List Turn)
@[simp] theorem setTurns_regs : (s.setTurns l).regs = s.regs := rfl
@[simp] theorem setTurns_mem : (s.setTurns l).mem = s.mem := rfl
@[simp] theorem setTurns_disk : (s.setTurns l).disk = s.disk := rfl
@[simp] theorem setTurns_out : (s.setTurns l).out = s.out := rfl
@[simp] theorem setTurns_run : (s.setTurns l).run = s.run := rfl
@[simp] theorem setTurns_turns : (s.setTurns l).turns = l := rfl
end turns

end fields

/-! ### Register reads -/

theorem reg_congr {s t : State} (h : t.regs = s.regs) (r : Reg) : t.reg r = s.reg r := by
  simp [State.reg, h]

theorem byteAt_congr {s t : State} (h : t.mem = s.mem) (a : Word) : t.byteAt a = s.byteAt a := by
  simp [State.byteAt, h]

theorem pc_eq_reg (s : State) : s.pc = s.reg 15 := rfl
theorem sp_eq_reg (s : State) : s.sp = s.reg 14 := rfl

@[simp] theorem reg_setReg (s : State) (q r : Reg) (v : Word) :
    (s.setReg r v).reg q = if q = r then v else s.reg q := by
  simp only [State.reg, State.setReg, Vector.getElem_set, Fin.ext_iff, eq_comm]

@[simp] theorem reg_setByte (s : State) (a : Word) (b : Byte) (r : Reg) : (s.setByte a b).reg r = s.reg r := rfl
@[simp] theorem reg_setWord (s : State) (a v : Word) (r : Reg) : (s.setWord a v).reg r = s.reg r := rfl
@[simp] theorem reg_halt (s : State) (c : HaltCause) (r : Reg) : (s.halt c).reg r = s.reg r := rfl
@[simp] theorem reg_emit (s : State) (p d : Word) (r : Reg) : (s.emit p d).reg r = s.reg r := rfl
@[simp] theorem reg_sectorToMemory (s : State) (n : Nat) (a : Word) (r : Reg) :
    (s.sectorToMemory n a).reg r = s.reg r := reg_congr (by simp) r
@[simp] theorem reg_memoryToSector (s : State) (n : Nat) (a : Word) (r : Reg) :
    (s.memoryToSector n a).reg r = s.reg r := reg_congr (by simp) r
@[simp] theorem reg_keyEvent (s : State) (b : Byte) (r : Reg) : (s.keyEvent b).reg r = s.reg r := rfl
@[simp] theorem reg_quit (s : State) (r : Reg) : s.quit.reg r = s.reg r := rfl

@[simp] theorem reg_setTurns (s : State) (l : List Turn) (r : Reg) : (s.setTurns l).reg r = s.reg r := rfl
@[simp] theorem byteAt_setTurns (s : State) (l : List Turn) (a : Word) : (s.setTurns l).byteAt a = s.byteAt a := rfl
@[simp] theorem pc_setTurns (s : State) (l : List Turn) : (s.setTurns l).pc = s.pc := rfl

@[simp] theorem byteAt_setReg (s : State) (r : Reg) (v a : Word) : (s.setReg r v).byteAt a = s.byteAt a := rfl
@[simp] theorem byteAt_halt (s : State) (c : HaltCause) (a : Word) : (s.halt c).byteAt a = s.byteAt a := rfl
@[simp] theorem byteAt_emit (s : State) (p d a : Word) : (s.emit p d).byteAt a = s.byteAt a := rfl
@[simp] theorem byteAt_memoryToSector (s : State) (n : Nat) (w a : Word) :
    (s.memoryToSector n w).byteAt a = s.byteAt a := byteAt_congr (by simp) a
@[simp] theorem byteAt_quit (s : State) (a : Word) : s.quit.byteAt a = s.byteAt a := rfl

end Sys2Proof.Machine
end

