-- ==== Sys2Proof/Laws/Ops.lean ====
section
/-! SUPPORT. One lemma per shared operation that says what it does: reads after stores and sector copies, the canonical
form, and the advance of the pc. -/

namespace Sys2Proof.Machine

open Sys2Proof.Safety

/-! ### Memory -/

@[simp] theorem byteAt_setByte (s : State) (a q : Word) (b : Byte) :
    (s.setByte a b).byteAt q = if q = a then b else s.byteAt q := by
  simp only [State.byteAt, State.setByte, Cells.read_write, BitVec.toNat_inj]

theorem byteAt_setWord (s : State) (a q v : Word) :
    (s.setWord a v).byteAt q = if q = a + 1#16 then lowByte v else if q = a then highByte v else s.byteAt q := by
  simp only [State.setWord, byteAt_setByte]

theorem byteAt_keyEvent (s : State) (b : Byte) (q : Word) :
    (s.keyEvent b).byteAt q = if q = 0xFFFF#16 then b else s.byteAt q := by
  simp only [State.keyEvent, byteAt_setByte, Config.keyboardAddress]

theorem wordAt_toNat (s : State) (a : Word) :
    (s.wordAt a).toNat = (s.byteAt a).toNat * 256 + (s.byteAt (a + 1#16)).toNat := joinBytes_toNat _ _

theorem wordAt_setWord (s : State) (a v : Word) : (s.setWord a v).wordAt a = v := by
  have h : a ≠ a + 1#16 := by
    intro h
    have := congrArg BitVec.toNat h
    simp only [BitVec.toNat_add] at this
    have := a.isLt
    simp at *
  simp only [State.wordAt, byteAt_setWord, h, if_false, if_true, joinBytes_bytes]

theorem memory_wf_setByte (s : State) (a : Word) (b : Byte) (h : Memory.wf s.mem = true) :
    Memory.wf (s.setByte a b).mem = true :=
  Cells.wfFrom_write _ _ _ a.isLt h

theorem memory_wf_setWord (s : State) (a v : Word) (h : Memory.wf s.mem = true) : Memory.wf (s.setWord a v).mem = true :=
  memory_wf_setByte _ _ _ (memory_wf_setByte _ _ _ h)

theorem memory_wf_keyEvent (s : State) (b : Byte) (h : Memory.wf s.mem = true) : Memory.wf (s.keyEvent b).mem = true :=
  memory_wf_setByte _ _ _ h

/-- The memory of the reset state is in canonical form. -/
theorem memory_wf_reset : Memory.wf State.reset.mem = true := rfl

theorem memory_wf_placeBytes (bytes : List Byte) (s : State) (a : Word) (h : Memory.wf s.mem = true) :
    Memory.wf (s.placeBytes a bytes).mem = true := by
  induction bytes generalizing s a with
  | nil => exact h
  | cons b rest ih => exact ih _ _ (memory_wf_setByte s a b h)

/-! ### Sector copies -/

theorem mem_windowPositions (a : Word) (q : Nat) :
    q ∈ windowPositions a ↔ ∃ k < 512, (a.toNat + k) % 65536 = q := by
  simp only [windowPositions, List.mem_map, List.mem_range, Config.sectorSize, Config.memSize]

theorem mem_sectorPositions (n q : Nat) : q ∈ sectorPositions n ↔ ∃ k < 512, n * 512 + k = q := by
  simp only [sectorPositions, List.mem_map, List.mem_range, Config.sectorSize]

theorem nodup_windowPositions (a : Word) : (windowPositions a).Nodup := by
  refine List.Nodup.map_on ?_ List.nodup_range
  intro x hx y hy h
  simp only [List.mem_range, Config.sectorSize, Config.memSize] at hx hy h
  omega

theorem nodup_sectorPositions (n : Nat) : (sectorPositions n).Nodup := by
  refine List.Nodup.map_on ?_ List.nodup_range
  intro x _ y _ h
  omega

/-- A copy between two equally long lists of positions, the targets distinct: what a target reads afterwards. -/
theorem Cells.read_copy (src dst : Cells) (f g : Nat → Nat) (n k : Nat) (hk : k < n)
    (hnd : ((List.range n).map g).Nodup) :
    (dst.writeMany (((List.range n).map g).zip (src.readMany ((List.range n).map f)))).read (g k) = src.read (f k) := by
  have hz : ((List.range n).map g).zip (src.readMany ((List.range n).map f)) =
      (List.range n).map fun j => (g j, src.read (f j)) := by
    simp [Cells.readMany, List.zip_map', Function.comp_def]
  rw [hz]
  have := Cells.read_writeMany_mem ((List.range n).map fun j => (g j, src.read (f j))) dst
    (by simpa [List.map_map, Function.comp_def] using hnd) (g k, src.read (f k))
    (List.mem_map.mpr ⟨k, List.mem_range.mpr hk, rfl⟩)
  exact this

/-- The same copy: what every other position reads afterwards. -/
theorem Cells.read_copy_other (vs : List Byte) (ps : List Nat) (dst : Cells) (q : Nat) (hq : q ∉ ps) :
    (dst.writeMany (ps.zip vs)).read q = dst.read q := by
  refine Cells.read_writeMany_other _ _ _ ?_
  rintro ⟨x, y⟩ he rfl
  exact hq (List.of_mem_zip he).1

theorem sectorToMemory_mem (s : State) (n : Nat) (a : Word) : (s.sectorToMemory n a).mem =
    Cells.writeMany s.mem ((windowPositions a).zip (Cells.readMany s.disk.cells (sectorPositions n))) := by
  simp only [State.sectorToMemory]

theorem memoryToSector_cells (s : State) (n : Nat) (a : Word) : (s.memoryToSector n a).disk.cells =
    Cells.writeMany s.disk.cells ((sectorPositions n).zip (Cells.readMany s.mem (windowPositions a))) := by
  simp only [State.memoryToSector]

theorem diskByteAt_eq (d : Disk) (n k : Nat) : d.byteAt n k = Cells.read d.cells (n * 512 + k) := by
  simp only [Disk.byteAt, Config.sectorSize]

/-- M[(a + k) mod 65536] after `sectorToMemory n a` is DISK[n][k]. -/
theorem byteAt_sectorToMemory_inside (s : State) (n : Nat) (a q : Word) (k : Nat) (hk : k < 512)
    (hq : q.toNat = (a.toNat + k) % 65536) : (s.sectorToMemory n a).byteAt q = s.disk.byteAt n k := by
  rw [State.byteAt, hq, sectorToMemory_mem, diskByteAt_eq, windowPositions, sectorPositions]
  simp only [Config.sectorSize, Config.memSize]
  exact Cells.read_copy s.disk.cells s.mem (fun k => n * 512 + k) (fun k => (a.toNat + k) % 65536) 512 k hk
    (nodup_windowPositions a)

/-- Outside its window `sectorToMemory` changes no byte. -/
theorem byteAt_sectorToMemory_outside (s : State) (n : Nat) (a q : Word)
    (hq : ∀ k < 512, q.toNat ≠ (a.toNat + k) % 65536) : (s.sectorToMemory n a).byteAt q = s.byteAt q := by
  rw [State.byteAt, sectorToMemory_mem, Cells.read_copy_other]
  · rfl
  · rw [mem_windowPositions]
    rintro ⟨k, hk, h⟩
    exact hq k hk h.symm

/-- DISK[n][k] after `memoryToSector n a` is M[(a + k) mod 65536]. -/
theorem diskByteAt_memoryToSector_inside (s : State) (n : Nat) (a q : Word) (k : Nat) (hk : k < 512)
    (hq : q.toNat = (a.toNat + k) % 65536) : (s.memoryToSector n a).disk.byteAt n k = s.byteAt q := by
  rw [State.byteAt, hq, diskByteAt_eq, memoryToSector_cells, windowPositions, sectorPositions]
  simp only [Config.sectorSize, Config.memSize]
  exact Cells.read_copy s.mem s.disk.cells (fun k => (a.toNat + k) % 65536) (fun k => n * 512 + k) 512 k hk
    (nodup_sectorPositions n)

/-- `memoryToSector` changes no other sector. -/
theorem diskByteAt_memoryToSector_outside (s : State) (n m : Nat) (a : Word) (k : Nat) (hk : k < 512) (hm : m ≠ n) :
    (s.memoryToSector n a).disk.byteAt m k = s.disk.byteAt m k := by
  rw [diskByteAt_eq, diskByteAt_eq, memoryToSector_cells, Cells.read_copy_other]
  rw [mem_sectorPositions]
  rintro ⟨j, hj, h⟩
  omega

theorem memory_wf_sectorToMemory (s : State) (n : Nat) (a : Word) (h : Memory.wf s.mem = true) :
    Memory.wf (s.sectorToMemory n a).mem = true := by
  rw [sectorToMemory_mem]
  refine Cells.wfFrom_writeMany _ _ ?_ h
  rintro ⟨x, y⟩ he
  obtain ⟨k, _, hx⟩ := (mem_windowPositions a x).mp (List.of_mem_zip he).1
  simp only [Config.memSize]
  omega

theorem disk_wf_memoryToSector (s : State) (n : Nat) (a : Word) (hn : s.disk.hasSector n = true)
    (h : s.disk.wf = true) : (s.memoryToSector n a).disk.wf = true := by
  simp only [Disk.wf, Bool.and_eq_true, memoryToSector_sectors] at h ⊢
  rw [memoryToSector_cells]
  refine ⟨h.1, Cells.wfFrom_writeMany _ _ ?_ h.2⟩
  rintro ⟨x, y⟩ he
  obtain ⟨k, hk, hx⟩ := (mem_sectorPositions n x).mp (List.of_mem_zip he).1
  simp only [Disk.hasSector, decide_eq_true_eq] at hn
  simp only [Config.sectorSize]
  omega

/-! ### The advance of the pc -/

theorem advance_of_le {s : State} {n : Nat} (h : s.pc.toNat + n ≤ 0xFFFF) :
    s.advance n = s.setReg 15 (BitVec.ofNat 16 (s.pc.toNat + n)) := by
  rw [State.advance, if_pos h, Config.pcIndex]

theorem advance_of_gt {s : State} {n : Nat} (h : 0xFFFF < s.pc.toNat + n) : s.advance n = s.halt .pcOutOfBounds := by
  rw [State.advance, if_neg (by omega)]

/-- What the advance does to the pc and the run state. -/
theorem advance_pcMoves (s : State) (n : Nat) : PcMoves n s.pc s (s.advance n) := by
  constructor <;> intro h
  · rw [advance_of_le h, pc_eq_reg (s.setReg _ _), reg_setReg, if_pos rfl, BitVec.toNat_ofNat]
    exact ⟨by omega, rfl⟩
  · rw [advance_of_gt h]
    exact ⟨rfl, rfl⟩

theorem reg_advance (s : State) (n : Nat) (r : Reg) (hr : r ≠ 15) : (s.advance n).reg r = s.reg r := by
  rcases Nat.lt_or_ge 0xFFFF (s.pc.toNat + n) with h | h
  · rw [advance_of_gt h, reg_halt]
  · rw [advance_of_le h, reg_setReg, if_neg hr]

@[simp] theorem advance_mem (s : State) (n : Nat) : (s.advance n).mem = s.mem := by
  unfold State.advance; split <;> rfl
@[simp] theorem advance_disk (s : State) (n : Nat) : (s.advance n).disk = s.disk := by
  unfold State.advance; split <;> rfl
@[simp] theorem advance_out (s : State) (n : Nat) : (s.advance n).out = s.out := by
  unfold State.advance; split <;> rfl
@[simp] theorem advance_turns (s : State) (n : Nat) : (s.advance n).turns = s.turns := by
  unfold State.advance; split <;> rfl
@[simp] theorem byteAt_advance (s : State) (n : Nat) (a : Word) : (s.advance n).byteAt a = s.byteAt a :=
  byteAt_congr (advance_mem s n) a

/-! ### The ends of an instruction -/

theorem finish_eq (n : Nat) (s : State) : finish n s = .next (s.advance n) := rfl

theorem finishAssign_eq (rA : Reg) (v : Word) (s : State) :
    finishAssign rA v s = .next (if rA = 15 then s.setReg 15 v else (s.setReg rA v).advance 3) := by
  by_cases h : rA = 15
  · subst h; rfl
  · simp only [finishAssign, finishJump, Config.pcIndex, h, decide_false, Bool.false_eq_true, if_false, finish,
      Config.defaultStep]

theorem finishCompute_eq (rA : Reg) (v : Word) (s : State) :
    finishCompute rA v s = .next ((s.setReg rA v).advance 3) := rfl

end Sys2Proof.Machine
end

