-- ==== Sys2Proof/Laws/Exec.lean ====
section
/-! SUPPORT. What one instruction and one step can do, said once: a property that every shared operation keeps is kept by
every instruction and by every step. Invariants cite this instead of unfolding exec. -/

namespace Sys2Proof.Machine

/-- The property is kept by every operation an instruction is made of. -/
structure KeptByOps (P : State → Prop) : Prop where
  setReg : ∀ s r v, P s → P (s.setReg r v)
  setByte : ∀ s a b, P s → P (s.setByte a b)
  emit : ∀ s p d, P s → P (s.emit p d)
  load : ∀ s n a, s.disk.hasSector n = true → P s → P (s.sectorToMemory n a)
  save : ∀ s n a, s.disk.hasSector n = true → P s → P (s.memoryToSector n a)
  halt : ∀ s c, P s → P (s.halt c)

section kept
variable {P : State → Prop} (hP : KeptByOps P)
include hP

theorem KeptByOps.advance (s : State) (n : Nat) (h : P s) : P (s.advance n) := by
  unfold State.advance
  split
  · exact hP.setReg _ _ _ h
  · exact hP.halt _ _ h

theorem KeptByOps.setWord (s : State) (a v : Word) (h : P s) : P (s.setWord a v) :=
  hP.setByte _ _ _ (hP.setByte _ _ _ h)

theorem KeptByOps.storeAt (s : State) (w : Access) (a v : Word) (h : P s) : P (s.storeAt w a v) := by
  cases w
  · exact hP.setWord _ _ _ h
  · exact hP.setByte _ _ _ h

theorem KeptByOps.finish {n : Nat} {s t : State} (h : P s) (he : Machine.finish n s = .next t) : P t := by
  cases he
  exact hP.advance _ _ h

theorem KeptByOps.finishJump {j : Bool} {s t : State} (h : P s) (he : Machine.finishJump j s = .next t) : P t := by
  cases j
  · exact hP.finish h he
  · cases he; exact h

theorem KeptByOps.branchIf {j : Bool} {a : Word} {s t : State} (h : P s) (he : Machine.branchIf j a s = .next t) :
    P t := by
  cases j
  · have he : Machine.finishJump false s = .next t := he
    exact hP.finishJump h he
  · have he : Machine.finishJump true (s.setReg Config.pcIndex a) = .next t := he
    exact hP.finishJump (hP.setReg _ _ _ h) he

/-- A property kept by the shared operations is kept by every instruction. -/
theorem KeptByOps.exec {i : Instr} {s t : State} (h : P s) (he : Machine.exec i s = .next t) : P t := by
  cases i with
  | nop => exact hP.finish h he
  | mov rA rB => exact hP.finishJump (hP.setReg _ _ _ h) he
  | movi rA v => exact hP.finishJump (hP.setReg _ _ _ h) he
  | add rA rB => exact hP.finish (hP.setReg _ _ _ h) he
  | sub rA rB => exact hP.finish (hP.setReg _ _ _ h) he
  | mul rA rB => exact hP.finish (hP.setReg _ _ _ h) he
  | div rA rB =>
    simp only [Machine.exec, execDiv] at he
    split at he
    · cases he; exact hP.halt _ _ h
    · exact hP.finish (hP.setReg _ _ _ h) he
  | out rA rB => exact hP.finish (hP.emit _ _ _ h) he
  | je rA rB rC => exact hP.branchIf h he
  | jne rA rB rC => exact hP.branchIf h he
  | peek rA rB rC =>
    simp only [Machine.exec, execPeek] at he
    split at he
    · cases he
    · split at he
      · exact hP.finish (hP.setReg _ _ _ h) he
      · cases he
  | poke rA rB rC =>
    simp only [Machine.exec, execPoke] at he
    split at he
    · cases he
    · split at he
      · exact hP.finish (hP.storeAt _ _ _ _ h) he
      · cases he
  | load rA rB =>
    simp only [Machine.exec, execLoad] at he
    split at he
    · exact hP.finish (hP.load _ _ _ ‹_› h) he
    · cases he
  | save rA rB =>
    simp only [Machine.exec, execSave] at he
    split at he
    · exact hP.finish (hP.save _ _ _ ‹_› h) he
    · cases he
  | pop rA =>
    simp only [Machine.exec, execPop] at he
    split at he
    · exact hP.finishJump (hP.setReg _ _ _ (hP.setReg _ _ _ h)) he
    · cases he
  | push rA =>
    simp only [Machine.exec, execPush] at he
    split at he
    · exact hP.finish (hP.setReg _ _ _ (hP.setWord _ _ _ h)) he
    · cases he

/-- A property kept by the shared operations is kept by a cycle. -/
theorem KeptByOps.cycle {s t : State} (h : P s) (he : Machine.cycle s = .next t) : P t := by
  unfold Machine.cycle at he
  split at he
  · split at he
    · exact hP.exec h he
    · cases he; exact hP.halt _ _ h
  · cases he; exact hP.halt _ _ h

end kept

/-- What a step can do: one cycle of the CPU, one byte written to the latch, or the host's quit; the machine was running
and the turn is used up. -/
theorem step_cases {s t : State} (he : step s = .next t) :
    s.run = .running ∧
      ((s.turns = [] ∧ cycle s = .next t) ∨
        (∃ rest, s.turns = .cpu :: rest ∧ cycle (s.setTurns rest) = .next t) ∨
        (∃ code rest, s.turns = .key code :: rest ∧ t = (s.setTurns rest).keyEvent code) ∨
        (∃ rest, s.turns = .quit :: rest ∧ t = (s.setTurns rest).quit)) := by
  simp only [step, takeTurn] at he
  split at he
  · cases he
  · cases he
  · rename_i hrun
    refine ⟨hrun, ?_⟩
    split at he
    · exact .inl ⟨‹_›, he⟩
    · exact .inr (.inl ⟨_, ‹_›, he⟩)
    · cases he; exact .inr (.inr (.inl ⟨_, _, ‹_›, rfl⟩))
    · cases he; exact .inr (.inr (.inr ⟨_, ‹_›, rfl⟩))

/-- A property kept by the shared operations, by a change of the turns and by the host's quit is kept by every step. -/
theorem KeptByOps.step {P : State → Prop} (hP : KeptByOps P) (hturns : ∀ s l, P s → P (s.setTurns l))
    (hquit : ∀ s, P s → P s.quit) {s t : State} (h : P s) (he : Machine.step s = .next t) : P t := by
  obtain ⟨_, ⟨_, hc⟩ | ⟨rest, _, hc⟩ | ⟨code, rest, _, rfl⟩ | ⟨rest, _, rfl⟩⟩ := step_cases he
  · exact hP.cycle h hc
  · exact hP.cycle (hturns _ _ h) hc
  · exact hP.setByte _ _ _ (hturns _ _ h)
  · exact hquit _ (hturns _ _ h)

end Sys2Proof.Machine
end

