-- ==== Sys2Proof/Laws/PerInstr.lean ====
section
/-! SUPPORT. Statements about every instruction as syntax, one lemma per constructor: the encoder emits three bytes whose
ignored fields are zero (30_encoding R70, R74, R76). -/

namespace Sys2Proof.Laws

open Sys2Proof.Machine

/-- The encoding of the instruction is three canonical bytes. -/
def Encoding.Statement (i : Instr) : Prop :=
  ∃ b1 b2 b3, encode i = [b1, b2, b3] ∧ canonicalBytes b1 b2 b3 = true

theorem Encoding.nop : Encoding.Statement (.nop) :=
  ⟨_, _, _, rfl, by simp [canonicalBytes, opcodeOf, fieldsOfInstr]⟩

theorem Encoding.mov (rA : Reg) (rB : Reg) : Encoding.Statement (.mov rA rB) :=
  ⟨_, _, _, rfl, by simp [canonicalBytes, opcodeOf, fieldsOfInstr]⟩

theorem Encoding.movi (rA : Reg) (imm : Word) : Encoding.Statement (.movi rA imm) :=
  ⟨_, _, _, rfl, by simp [canonicalBytes, opcodeOf, fieldsOfInstr]⟩

theorem Encoding.add (rA : Reg) (rB : Reg) : Encoding.Statement (.add rA rB) :=
  ⟨_, _, _, rfl, by simp [canonicalBytes, opcodeOf, fieldsOfInstr]⟩

theorem Encoding.sub (rA : Reg) (rB : Reg) : Encoding.Statement (.sub rA rB) :=
  ⟨_, _, _, rfl, by simp [canonicalBytes, opcodeOf, fieldsOfInstr]⟩

theorem Encoding.mul (rA : Reg) (rB : Reg) : Encoding.Statement (.mul rA rB) :=
  ⟨_, _, _, rfl, by simp [canonicalBytes, opcodeOf, fieldsOfInstr]⟩

theorem Encoding.div (rA : Reg) (rB : Reg) : Encoding.Statement (.div rA rB) :=
  ⟨_, _, _, rfl, by simp [canonicalBytes, opcodeOf, fieldsOfInstr]⟩

theorem Encoding.out (rA : Reg) (rB : Reg) : Encoding.Statement (.out rA rB) :=
  ⟨_, _, _, rfl, by simp [canonicalBytes, opcodeOf, fieldsOfInstr]⟩

theorem Encoding.je (rA : Reg) (rB : Reg) (rC : Reg) : Encoding.Statement (.je rA rB rC) :=
  ⟨_, _, _, rfl, by simp [canonicalBytes, opcodeOf, fieldsOfInstr]⟩

theorem Encoding.jne (rA : Reg) (rB : Reg) (rC : Reg) : Encoding.Statement (.jne rA rB rC) :=
  ⟨_, _, _, rfl, by simp [canonicalBytes, opcodeOf, fieldsOfInstr]⟩

theorem Encoding.peek (rA : Reg) (rB : Reg) (rC : Reg) : Encoding.Statement (.peek rA rB rC) :=
  ⟨_, _, _, rfl, by simp [canonicalBytes, opcodeOf, fieldsOfInstr]⟩

theorem Encoding.poke (rA : Reg) (rB : Reg) (rC : Reg) : Encoding.Statement (.poke rA rB rC) :=
  ⟨_, _, _, rfl, by simp [canonicalBytes, opcodeOf, fieldsOfInstr]⟩

theorem Encoding.load (rA : Reg) (rB : Reg) : Encoding.Statement (.load rA rB) :=
  ⟨_, _, _, rfl, by simp [canonicalBytes, opcodeOf, fieldsOfInstr]⟩

theorem Encoding.save (rA : Reg) (rB : Reg) : Encoding.Statement (.save rA rB) :=
  ⟨_, _, _, rfl, by simp [canonicalBytes, opcodeOf, fieldsOfInstr]⟩

theorem Encoding.pop (rA : Reg) : Encoding.Statement (.pop rA) :=
  ⟨_, _, _, rfl, by simp [canonicalBytes, opcodeOf, fieldsOfInstr]⟩

theorem Encoding.push (rA : Reg) : Encoding.Statement (.push rA) :=
  ⟨_, _, _, rfl, by simp [canonicalBytes, opcodeOf, fieldsOfInstr]⟩

end Sys2Proof.Laws
end

