-- ==== Sys2Proof/Tests/Slice0.lean ====
section
/-! SUPPORT. The model's own tests: one step each, with the expected value taken from the spec's rule or from the row of
95_test_vectors named in the comment, and a witness for every statement that has hypotheses. -/

namespace Sys2Proof.Tests

open Sys2Proof.Machine Sys2Proof.Safety

/-- The reset state with some registers and some bytes of memory written. -/
def st (regs : List (Reg × Word)) (bytes : List (Word × Byte)) : State :=
  bytes.foldl (fun s e => s.setByte e.1 e.2) (regs.foldl (fun s e => s.setReg e.1 e.2) State.reset)

/-- What is read from the next state. -/
def after {α : Type} (r : Result) (f : State → α) : Option α :=
  match r with
  | .next t => some (f t)
  | _ => none

/-- The fault, if the step ends in one. -/
def faultOf (r : Result) : Option Fault :=
  match r with
  | .fault f => some f
  | _ => none

/-! ### WellFormed: each check refuses an ill-formed term -/

/-- 30_encoding R76: mov ignores rC, which the assembler emits as 0. -/
theorem test_wellFormed_refuses_nonzero_rC : canonicalBytes 0x13#8 0x5F#8 0x00#8 = false := by decide
/-- 30_encoding R74: byte 3 of format R. -/
theorem test_wellFormed_refuses_nonzero_byte3 : canonicalBytes 0x80#8 0x12#8 0x77#8 = false := by decide
/-- 30_encoding R76: no-op ignores rA. -/
theorem test_wellFormed_refuses_nop_with_rA : canonicalBytes 0x0F#8 0x00#8 0x00#8 = false := by decide
/-- 30_encoding R72: load-immediate has no ignored field. -/
theorem test_wellFormed_takes_movi : canonicalBytes 0x2F#8 0xFF#8 0xFF#8 = true := by decide
/-- 00_scope R5: DISK_SECTORS is 1 to 65,536. -/
theorem test_wellFormed_refuses_disk_sizes : diskSizeWellFormed 0 = false ∧ diskSizeWellFormed 65537 = false ∧
    diskSizeWellFormed 65536 = true := by decide
/-- 00_scope R5: BOOT_ROM has at most 65,536 bytes. -/
theorem test_wellFormed_refuses_long_rom : bootRomWellFormed (List.replicate 65537 0#8) = false := by
  rw [bootRomWellFormed, List.length_replicate]; decide
/-- 00_scope R5: the three echo ports differ. -/
theorem test_wellFormed_refuses_equal_ports : echoPortsWellFormed ⟨1#16, 3#16⟩ = false ∧
    echoPortsWellFormed ⟨2#16, 1#16⟩ = false ∧ echoPortsWellFormed ⟨2#16, 2#16⟩ = false ∧
    echoPortsWellFormed ⟨2#16, 3#16⟩ = true := by decide

/-! ### Decoding: the bytes of 95_test_vectors -/

/-- M1, M2. -/
theorem test_decode_nop : decodeBytes 0x0F#8 0xAB#8 0xCD#8 = some .nop := by decide
/-- M9: rC and byte 3 ignored. -/
theorem test_decode_mov : decodeBytes 0x13#8 0x5F#8 0x77#8 = some (.mov 3 5) := by decide
/-- M12. -/
theorem test_decode_movi : decodeBytes 0x27#8 0x80#8 0x01#8 = some (.movi 7 0x8001#16) := by decide
/-- A1, A7, A13, A20. -/
theorem test_decode_alu : decodeBytes 0x30#8 0x10#8 0#8 = some (.add 0 1) ∧ decodeBytes 0x40#8 0x10#8 0#8 = some (.sub 0 1) ∧
    decodeBytes 0x50#8 0x10#8 0#8 = some (.mul 0 1) ∧ decodeBytes 0x60#8 0x10#8 0#8 = some (.div 0 1) := by decide
/-- O1. -/
theorem test_decode_out : decodeBytes 0x72#8 0x10#8 0#8 = some (.out 2 1) := by decide
/-- B11, B10. -/
theorem test_decode_branches : decodeBytes 0x80#8 0x1F#8 0#8 = some (.je 0 1 15) ∧
    decodeBytes 0x90#8 0x05#8 0#8 = some (.jne 0 0 5) := by decide
/-- K12, K22. -/
theorem test_decode_memory : decodeBytes 0xA3#8 0xF2#8 0#8 = some (.peek 3 15 2) ∧
    decodeBytes 0xBF#8 0x12#8 0#8 = some (.poke 15 1 2) := by decide
/-- 46_disk R160, R162: examples. -/
theorem test_decode_disk : decodeBytes 0xC0#8 0x70#8 0#8 = some (.load 0 7) ∧
    decodeBytes 0xD0#8 0x10#8 0#8 = some (.save 0 1) := by decide
/-- T2, T1. -/
theorem test_decode_stack : decodeBytes 0xE8#8 0#8 0#8 = some (.pop 8) ∧
    decodeBytes 0xF7#8 0#8 0#8 = some (.push 7) := by decide
/-- S2: (movi, 10, 0x1234), (push, 0), (mov, 15, 15). -/
theorem test_encode : encode (.movi 10 0x1234#16) = [0x2A#8, 0x12#8, 0x34#8] ∧ encode (.push 0) = [0xF0#8, 0#8, 0#8] ∧
    encode (.mov 15 15) = [0x1F#8, 0xF0#8, 0#8] := by decide
/-- 30_encoding R70: two bytes are no instruction. -/
theorem test_decode_truncated : decode [0x20#8, 0x00#8] = .reject .truncated := by decide

/-! ### One instruction -/

/-- M1. -/
theorem test_nop : after (exec .nop (st [(15, 0x100#16)] [])) (fun t => t.pc) = some 0x101#16 := by decide
/-- M5: register 15 reads the instruction's own address. -/
theorem test_mov_from_pc : after (exec (.mov 3 15) (st [(15, 0x20#16)] [])) (fun t => (t.reg 3, t.pc)) =
    some (0x20#16, 0x23#16) := by decide
/-- M6. -/
theorem test_mov_jumps : after (exec (.mov 15 5) (st [(5, 0x200#16)] [])) (fun t => t.pc) = some 0x200#16 := by decide
/-- M14. -/
theorem test_movi_shutdown : after (exec (.movi 15 0xFFFF#16) (st [] [])) (fun t => (t.pc, t.run)) =
    some (0xFFFF#16, .running) := by decide
/-- Y3: the register is written, then the advance halts. -/
theorem test_movi_at_top : after (exec (.movi 0 0x1234#16) (st [(15, 0xFFFD#16)] [])) (fun t => (t.reg 0, t.pc, t.run)) =
    some (0x1234#16, 0xFFFD#16, .halted .pcOutOfBounds) := by decide
/-- A2. -/
theorem test_add_wraps : after (exec (.add 0 1) (st [(0, 0xFFFF#16), (1, 1#16)] [])) (fun t => (t.reg 0, t.pc)) =
    some (0#16, 3#16) := by decide
/-- A32: the pc moves by 3 from the sum. -/
theorem test_add_into_pc : after (exec (.add 15 1) (st [(15, 0x10#16), (1, 0x20#16)] [])) (fun t => t.pc) =
    some 0x33#16 := by decide
/-- A9. -/
theorem test_sub_wraps : after (exec (.sub 0 1) (st [(0, 5#16), (1, 8#16)] [])) (fun t => t.reg 0) =
    some 0xFFFD#16 := by decide
/-- A35. -/
theorem test_sub_into_pc_halts : after (exec (.sub 15 1) (st [(15, 0x10#16), (1, 0x13#16)] []))
    (fun t => (t.pc, t.run)) = some (0xFFFD#16, .halted .pcOutOfBounds) := by decide
/-- A17. -/
theorem test_mul_low_half : after (exec (.mul 0 1) (st [(0, 0x12C#16), (1, 0x12C#16)] [])) (fun t => t.reg 0) =
    some 0x5F90#16 := by decide
/-- A25: unsigned. -/
theorem test_div_unsigned : after (exec (.div 0 1) (st [(0, 0x8000#16), (1, 0xFFFF#16)] [])) (fun t => t.reg 0) =
    some 0#16 := by decide
/-- Y9: the halt of the handler comes before the advance. -/
theorem test_div_by_zero_at_top : after (exec (.div 0 1) (st [(0, 1#16), (15, 0xFFFD#16)] []))
    (fun t => (t.reg 0, t.pc, t.run)) = some (1#16, 0xFFFD#16, .halted .divideByZero) := by decide
/-- O2: the data is not truncated. -/
theorem test_out : after (exec (.out 2 1) (st [(2, 1#16), (1, 0x1234#16)] [])) (fun t => (t.out, t.pc)) =
    some ([⟨1#16, 0x1234#16⟩], 3#16) := by decide
/-- B6: a comparison of all 16 bits. -/
theorem test_je_not_taken : after (exec (.je 0 1 2) (st [(0, 0xFFFF#16), (1, 1#16), (2, 0x100#16), (15, 0x10#16)] []))
    (fun t => t.pc) = some 0x13#16 := by decide
/-- B12. -/
theorem test_je_compares_pc : after (exec (.je 15 1 2) (st [(1, 0x40#16), (2, 0x100#16), (15, 0x40#16)] []))
    (fun t => t.pc) = some 0x100#16 := by decide
/-- B3. -/
theorem test_jne_taken : after (exec (.jne 0 1 2) (st [(0, 5#16), (1, 6#16), (2, 0x100#16), (15, 0x10#16)] []))
    (fun t => t.pc) = some 0x100#16 := by decide
/-- K5: the low byte is the latch. -/
theorem test_peek_word_at_top : after (exec (.peek 7 1 2) (st [(1, 0xFFFE#16)] [(0xFFFE#16, 0xAB#8), (0xFFFF#16, 0x41#8)]))
    (fun t => t.reg 7) = some 0xAB41#16 := by decide
/-- K13: the pc moves by 3 from the value read. -/
theorem test_peek_into_pc : after (exec (.peek 15 1 2) (st [(15, 0x10#16), (1, 0x4000#16)] [(0x4000#16, 1#8)]))
    (fun t => t.pc) = some 0x103#16 := by decide
/-- K14. -/
theorem test_poke_word : after (exec (.poke 0 1 2) (st [(0, 0x1234#16), (1, 0x4000#16)] [])) (fun t => t.mem) =
    some [(0x4000, 0x12#8), (0x4001, 0x34#8)] := by decide
/-- K16: the low byte; K19: a zero leaves no entry. -/
theorem test_poke_byte : after (exec (.poke 0 1 2) (st [(0, 0xABCD#16), (1, 0x4001#16), (2, 1#16)] [])) (fun t => t.mem) =
    some [(0x4001, 0xCD#8)] ∧
    after (exec (.poke 0 1 2) (st [(1, 0xFFFF#16), (2, 1#16)] [(0xFFFF#16, 0x41#8)])) (fun t => t.mem) = some [] := by
  decide
/-- T10: the popped word stays, the + 2 is lost. -/
theorem test_pop_sp : after (exec (.pop 14) (st [(14, 0x100#16), (15, 0x30#16)] [(0x100#16, 0xAB#8), (0x101#16, 0xCD#8)]))
    (fun t => (t.sp, t.pc)) = some (0xABCD#16, 0x33#16) := by decide
/-- T11. -/
theorem test_pop_pc : after (exec (.pop 15) (st [(14, 0x8FFE#16)] [(0x8FFF#16, 0x12#8)])) (fun t => (t.pc, t.sp)) =
    some (0x12#16, 0x9000#16) := by decide
/-- T3: from the reset value the pointer wraps and the latch is overwritten. -/
theorem test_push_wraps : after (exec (.push 1) (st [(1, 0xBEEF#16)] [])) (fun t => (t.sp, t.mem)) =
    some (0xFFFE#16, [(0xFFFE, 0xBE#8), (0xFFFF, 0xEF#8)]) := by decide
/-- T6: the old pointer is pushed. -/
theorem test_push_sp : after (exec (.push 14) (st [(14, 0x100#16)] [])) (fun t => (t.sp, t.mem)) =
    some (0xFE#16, [(0xFE, 0x01#8)]) := by decide

/-- A disk of four sectors whose sector 2 begins with 0x11 and ends with 0x22. -/
def disk4 : Disk := { sectors := 4, cells := [(1024, 0x11#8), (1535, 0x22#8)] }

/-- D3v: from 0xFFFF the window wraps to the bottom of memory. -/
theorem test_load_wraps : after (exec (.load 0 1) { st [(0, 2#16), (1, 0xFFFF#16)] [] with disk := disk4 })
    (fun t => t.mem) = some [(510, 0x22#8), (65535, 0x11#8)] := by decide +kernel
/-- D8v: the last byte below the wrap is the latch. -/
theorem test_save_wraps : after (exec (.save 0 1)
    { st [(0, 1#16), (1, 0xFF00#16)] [(0xFFFF#16, 0x41#8), (0#16, 0x99#8)] with disk := { sectors := 4, cells := [] } })
    (fun t => t.disk.cells) = some [(767, 0x41#8), (768, 0x99#8)] := by decide +kernel

/-! ### Where an instruction stops -/

/-- K7, K20, T9, T4. -/
theorem test_wordAtTop : faultOf (exec (.peek 7 1 2) (st [(1, 0xFFFF#16)] [])) = some .wordAtTop ∧
    faultOf (exec (.poke 7 1 2) (st [(1, 0xFFFF#16)] [])) = some .wordAtTop ∧
    faultOf (exec (.pop 1) (st [(14, 0xFFFF#16)] [])) = some .wordAtTop ∧
    faultOf (exec (.push 1) (st [(14, 1#16)] [])) = some .wordAtTop := by decide
/-- K9, K21, and 60_exceptions R189: the mode is examined before the address. -/
theorem test_reservedMode : faultOf (exec (.peek 7 1 2) (st [(1, 0x4000#16), (2, 0xFFFF#16)] [])) = some .reservedMode ∧
    faultOf (exec (.poke 7 1 2) (st [(1, 0xFFFF#16), (2, 2#16)] [])) = some .reservedMode := by decide
/-- D5v, D9v. -/
theorem test_sectorOutOfRange :
    faultOf (exec (.load 0 1) { st [(0, 4#16)] [] with disk := disk4 }) = some .diskSectorOutOfRange ∧
    faultOf (exec (.save 0 1) { st [(0, 4#16)] [] with disk := disk4 }) = some .diskSectorOutOfRange := by decide

/-! ### One step -/

/-- Y10: after a no-op the next byte is fetched. -/
theorem test_step_nop_then_movi : after (step (st [] [(1#16, 0x20#8), (2#16, 0x01#8), (3#16, 0x02#8)])) (fun t => t.pc) =
    some 1#16 ∧
    after (step (st [(15, 1#16)] [(1#16, 0x20#8), (2#16, 0x01#8), (3#16, 0x02#8)])) (fun t => (t.reg 0, t.pc)) =
      some (0x102#16, 4#16) := by decide
/-- Y1. -/
theorem test_step_fetch_out_of_bounds : after (step (st [(15, 0xFFFE#16)] [])) (fun t => (t.pc, t.run)) =
    some (0xFFFE#16, .halted .pcOutOfBounds) := by decide
/-- Y7: byte 3 of a fetch at 0xFFFD is the latch. -/
theorem test_step_fetches_the_latch : after (step (st [(15, 0xFFFD#16)] [(0xFFFD#16, 0x2F#8), (0xFFFF#16, 0x41#8)]))
    (fun t => t.pc) = some 0x41#16 := by decide
/-- Y8. -/
theorem test_step_halted : faultOf (step ((st [] []).halt .divideByZero)) = some .noCycle := by decide
/-- 60_exceptions R196: a key turn writes the latch. -/
theorem test_step_key : after (step ((st [] []).setTurns [.key 0x41#8])) (fun t => (t.mem, t.pc, t.turns)) =
    some ([(65535, 0x41#8)], 0#16, []) := by decide
/-- The word 30_encoding R82 gives movi r0, 0x5 runs as the first instruction after reset. -/
theorem test_withFetchWord : after (step (State.reset.withFetchWord 24 0x200005)) (fun t => (t.reg 0, t.pc)) =
    some (5#16, 3#16) := by decide

/-! ### Witnesses: the hypotheses of each statement are met, at the edges of their ranges -/

/-- NopMovesThePcByExactlyOne, at the last address. -/
theorem witness_nop : (st [(15, 0xFFFE#16)] []).pc.toNat ≤ 0xFFFE := by decide
/-- DivWritesTheUnsignedFloorQuotient, DivDecidesUnsignedOrder: divisor 1, and dividend = divisor. -/
theorem witness_div : (st [(0, 0xFFFF#16), (1, 1#16)] []).reg 1 ≠ 0#16 ∧
    after (exec (.div 0 1) (st [(0, 0xFFFF#16), (1, 0xFFFF#16)] [])) (fun t => t.reg 0) = some 1#16 := by decide
/-- DivByZeroHaltsBeforeAnyWrite. -/
theorem witness_div_by_zero : (st [(0, 1#16)] []).reg 1 = 0#16 := by decide
/-- OutReachesTheConsoleByItsPort: the four ports of its clauses. -/
theorem witness_console : echoPortsWellFormed ⟨2#16, 3#16⟩ = true ∧
    (after (exec (.out 2 1) (st [(2, 1#16), (1, 65#16)] [])) (State.console ⟨2#16, 3#16⟩) = some [(.character, 65#16)]) ∧
    (after (exec (.out 2 1) (st [(2, 2#16), (1, 65#16)] [])) (State.console ⟨2#16, 3#16⟩) = some [(.decimal, 65#16)]) ∧
    (after (exec (.out 2 1) (st [(2, 3#16), (1, 65#16)] [])) (State.console ⟨2#16, 3#16⟩) = some [(.hexadecimal, 65#16)]) ∧
    (after (exec (.out 2 1) (st [(2, 4#16), (1, 65#16)] [])) (State.console ⟨2#16, 3#16⟩) = some []) := by decide
/-- BranchesCompareAndJump: both outcomes. -/
theorem witness_branches : (st [] []).reg 0 = (st [] []).reg 1 ∧ (st [(0, 1#16)] []).reg 0 ≠ (st [(0, 1#16)] []).reg 1 := by
  decide
/-- WordsAreBigEndian: the last address. -/
theorem witness_word : (0xFFFE#16 : Word).toNat ≤ 0xFFFE := by decide
/-- PeekReadsTheWordOrByte, PokeStoresTheWordOrByte: the word at 0xFFFE, the byte at 0xFFFF. -/
theorem witness_peek_poke : (st [(1, 0xFFFE#16)] []).reg 2 = 0#16 ∧ (st [(1, 0xFFFE#16)] []).reg 1 ≠ 0xFFFF#16 ∧
    (st [(1, 0xFFFF#16), (2, 1#16)] []).reg 2 = 1#16 := by decide

/-- A state whose poke overwrites the next instruction's byte 1 with 0x20, movi. -/
def selfModifying : State :=
  st [(0, 0x20#16), (1, 3#16), (2, 1#16)] [(0#16, 0xB0#8), (1#16, 0x12#8), (4#16, 0x12#8), (5#16, 0x34#8)]

/-- AStoreIsSeenByTheNextFetch. -/
theorem witness_store_is_seen : selfModifying.run = .running ∧ selfModifying.turns = [] ∧ selfModifying.reg 2 = 1#16 ∧
    selfModifying.pc.toNat + 3 ≤ 0xFFFD ∧ selfModifying.reg 1 = selfModifying.pc + 3#16 ∧
    (after (exec (.poke 0 1 2) selfModifying) (fun t => t.instrAt t.pc) = some (some (.movi 0 0x1234#16))) ∧
    decodeBytes (BitVec.ofNat 8 (selfModifying.reg 0).toNat) (selfModifying.byteAt (selfModifying.pc + 4#16))
      (selfModifying.byteAt (selfModifying.pc + 5#16)) = some (.movi 0 0x1234#16) := by decide
/-- LoadCopiesTheSectorToTheWindow, SaveCopiesTheWindowToTheSector: the last sector of disk4, and of the largest disk. -/
theorem witness_sector : ((st [(0, 3#16)] []).reg 0).toNat < disk4.sectors ∧
    ((st [(0, 0xFFFF#16)] []).reg 0).toNat < (st [(0, 0xFFFF#16)] []).disk.sectors := by decide
/-- LoadAfterSaveReturnsTheSavedBytes: a save, then a load of the same sector elsewhere. -/
theorem witness_load_after_save :
    after (exec (.save 0 1) (st [(1, 0xFFFF#16)] [(0xFFFF#16, 0x41#8)]))
      (fun u => (u.reg 0 == 0#16, after (exec (.load 0 2) (u.setReg 2 0x3000#16)) (fun t => t.byteAt 0x3000#16))) =
    some (true, some 0x41#8) := by decide +kernel
/-- PopReadsTheWordAndMovesThePointerUp, PushStoresTheWordAndMovesThePointerDown: the pointer's edges 0xFFFE and 0. -/
theorem witness_stack : (st [(14, 0xFFFE#16)] []).reg 14 ≠ 0xFFFF#16 ∧ (st [] []).reg 14 ≠ 0x0001#16 := by decide
/-- PopAfterPushReturnsTheValue (T14). -/
theorem witness_pop_after_push :
    after (exec (.push 3) (st [(3, 0x5A5A#16), (14, 0x8000#16)] []))
      (fun u => after (exec (.pop 4) u) (fun w => (w.reg 4, w.reg 14))) = some (some (0x5A5A#16, 0x8000#16)) := by decide
/-- EveryHaltHasItsCause, HaltsAreRecordedAndPrecise: a halt of each of the three kinds, by a step. -/
theorem witness_halts :
    after (step (st [] [(0#16, 0x60#8), (1#16, 0x10#8)])) (fun t => t.run) = some (.halted .divideByZero) ∧
    after (step (st [(15, 0xFFFF#16)] [])) (fun t => t.run) = some (.halted .pcOutOfBounds) ∧
    after (step (st [(15, 0xFFFD#16)] [(0xFFFD#16, 0x30#8)])) (fun t => t.run) = some (.halted .pcOutOfBounds) := by decide
/-- AHaltedMachineNeverMoves. -/
theorem witness_halted : ((st [] []).halt .pcOutOfBounds).run = .halted .pcOutOfBounds := by decide
/-- AStepRunsTheDecodedInstruction: both ways the CPU can be next. -/
theorem witness_cpu_moves : CpuMoves (st [] []) [] ∧ CpuMoves ((st [] []).setTurns [.cpu, .quit]) [.quit] ∧
    (st [(15, 0xFFFD#16)] []).pc.toNat ≤ 0xFFFD ∧
    decodeBytes ((st [] []).byteAt 0#16) ((st [] []).byteAt 1#16) ((st [] []).byteAt 2#16) = some .nop :=
  ⟨⟨rfl, .inr ⟨rfl, rfl⟩⟩, ⟨rfl, .inl rfl⟩, by decide, by decide⟩
/-- AFetchOutOfBoundsHalts: the first address that cannot be fetched. -/
theorem witness_fetch_out_of_bounds : CpuMoves (st [(15, 0xFFFE#16)] []) [] ∧ 0xFFFD < (st [(15, 0xFFFE#16)] []).pc.toNat :=
  ⟨⟨by decide, .inr ⟨by decide, rfl⟩⟩, by decide⟩
/-- AKeyWritesOnlyTheLatch, AQuitStopsTheRunForGood. -/
theorem witness_other_agents : (State.reset.setTurns [.key 0#8]).run = .running ∧
    (State.reset.setTurns [.key 0#8]).turns = [.key 0#8] ∧ (State.reset.setTurns [.quit]).turns = [.quit] := by decide
/-- ZeroedMemoryIsANoopSlide: the reset state, up to the last cycle. -/
theorem witness_slide : State.reset.run = .running ∧ State.reset.turns = [] ∧ (∀ a : Word, State.reset.byteAt a = 0#8) ∧
    State.reset.pc.toNat + 0xFFFE ≤ 0xFFFE := ⟨rfl, rfl, fun _ => rfl, by decide⟩
/-- ResetZeroesRegistersAndCopiesTheRom, ResetLeavesTheRestOfMemoryZero, ResetMeetsTheInvariant: a ROM of three bytes, the
largest ROM, and a disk. -/
theorem witness_boot : bootRomWellFormed [0x2F#8, 0xFF#8, 0xFF#8] = true ∧
    bootRomWellFormed (List.replicate 65536 0#8) = true ∧ disk4.wf = true ∧
    (State.boot [0x2F#8, 0xFF#8, 0xFF#8] disk4).mem = [(0, 0x2F#8), (1, 0xFF#8), (2, 0xFF#8)] :=
  ⟨by decide, by rw [bootRomWellFormed, List.length_replicate]; decide, by decide, by decide⟩
/-- EveryStepKeepsTheInvariant, OutputIsAppendOnly, TheDiskKeepsItsSize: a state that meets the invariant and steps. -/
theorem witness_invariant : Invariant (st [] [(0#16, 0x70#8)]) = true ∧
    after (step (st [] [(0#16, 0x70#8)])) (fun t => (Invariant t, t.out)) = some (true, [⟨0#16, 0#16⟩]) := by decide
/-- EachSpaceIsWrittenByItsOwnInstructions: one instruction under each premise. -/
theorem witness_spaces : opcodeOf (.add 0 1) ∉ [Opcode.poke, .push, .load] ∧ opcodeOf (.add 0 1) ≠ .save ∧
    opcodeOf (.add 0 1) ≠ .out ∧ after (exec (.add 0 1) (st [] [])) (fun t => t.pc) = some 3#16 := by decide

end Sys2Proof.Tests
end

section
/-! The reset state with a boot ROM and a disk (10_state R37). -/

namespace Sys2Proof.Machine

theorem bootRomWellFormed_iff (rom : List Byte) : bootRomWellFormed rom = true ↔ rom.length ≤ 65536 :=
  decide_eq_true_iff

/-- The byte written at each address of the boot ROM, in the order in which `State.boot` writes them. -/
def romEntries (rom : List Byte) : List (Nat × Byte) := (List.range rom.length).zip rom

@[simp] theorem boot_mem (rom : List Byte) (disk : Disk) :
    (State.boot rom disk).mem = Cells.writeMany [] (romEntries rom) := rfl

@[simp] theorem map_fst_romEntries (rom : List Byte) : (romEntries rom).map Prod.fst = List.range rom.length :=
  List.map_fst_zip (by simp)

theorem mem_romEntries (rom : List Byte) (k : Nat) (h : k < rom.length) : (k, rom[k]) ∈ romEntries rom :=
  List.mem_iff_getElem.mpr ⟨k, by simpa [romEntries] using h, by simp [romEntries]⟩

@[simp] theorem reg_boot (rom : List Byte) (disk : Disk) (r : Reg) : (State.boot rom disk).reg r = 0#16 :=
  Vector.getElem_replicate r.isLt

/-- No address of the ROM is written twice, so byte k is not overwritten; and k, below the size of memory, is its own
address. -/
theorem byteAt_boot_of_lt (rom : List Byte) (disk : Disk) (hrom : rom.length ≤ 65536) (k : Nat) (h : k < rom.length) :
    (State.boot rom disk).byteAt (BitVec.ofNat 16 k) = rom[k] := by
  have haddr : (BitVec.ofNat 16 k).toNat = k := Nat.mod_eq_of_lt (by omega)
  have hdistinct : ((romEntries rom).map Prod.fst).Nodup := by
    rw [map_fst_romEntries]
    exact List.nodup_range
  rw [State.byteAt, haddr, boot_mem]
  exact Cells.read_writeMany_mem _ [] hdistinct (k, rom[k]) (mem_romEntries rom k h)

/-- Settles O33: the registers are those of `State.reset`, and the ROM's bytes go to distinct addresses. -/
theorem resetZeroesRegistersAndCopiesTheRom : Obligations.ResetZeroesRegistersAndCopiesTheRom := by
  intro rom disk hfits
  have hrom : rom.length ≤ 65536 := (bootRomWellFormed_iff rom).mp hfits
  exact ⟨reg_boot rom disk, byteAt_boot_of_lt rom disk hrom⟩

end Sys2Proof.Machine
end

section
/-! Words in memory (20_memory R41, R42), and the order of disk accesses (20_memory R58). -/

namespace Sys2Proof.Machine

/-! ### Words -/

theorem byteAt_setWord_high (s : State) (a v : Word) : (s.setWord a v).byteAt a = highByte v := by
  rw [byteAt_setWord, if_neg (by simp), if_pos rfl]

theorem byteAt_setWord_low (s : State) (a v : Word) : (s.setWord a v).byteAt (a + 1#16) = lowByte v := by
  rw [byteAt_setWord, if_pos rfl]

theorem byteAt_setWord_other (s : State) (a v q : Word) (hhigh : q ≠ a) (hlow : q ≠ a + 1#16) :
    (s.setWord a v).byteAt q = s.byteAt q := by
  rw [byteAt_setWord, if_neg hlow, if_neg hhigh]

/-- Settles O14: the read is `wordAt_toNat`, and a word write stores the two bytes of the word one after the other. The
bound on the address is not used: at 0xFFFF the model's operations wrap, and `wordFits` keeps instructions from it. -/
theorem wordsAreBigEndian : Obligations.WordsAreBigEndian := by
  intro s a v _
  refine ⟨wordAt_toNat s a, ?_, ?_, byteAt_setWord_other s a v⟩
  · rw [byteAt_setWord_high, highByte_toNat]
  · rw [byteAt_setWord_low, lowByte_toNat]

/-! ### Sector transfers -/

/-- An instruction that first checks its operands and else faults ends in a state exactly where the check holds. -/
theorem guardedFinish_eq_next_iff (ok : Bool) (f : Fault) (s t : State) :
    (if ok then finish Config.defaultStep s else .fault f) = .next t ↔ ok = true ∧ t = s.advance 3 := by
  cases ok with
  | false => simp
  | true => simp [finish_eq, Config.defaultStep, eq_comm]

theorem Disk.hasSector_iff (d : Disk) (n : Nat) : d.hasSector n = true ↔ n < d.sectors := decide_eq_true_iff

/-- What `load` can do: it ends in a state exactly where the sector exists, after the copy and the advance. -/
theorem exec_load_eq_next_iff (rA rB : Reg) (s t : State) :
    exec (.load rA rB) s = .next t ↔
      (s.reg rA).toNat < s.disk.sectors ∧ t = (s.sectorToMemory (s.reg rA).toNat (s.reg rB)).advance 3 := by
  rw [← Disk.hasSector_iff]
  exact guardedFinish_eq_next_iff _ _ _ _

/-- What `save` can do: it ends in a state exactly where the sector exists, after the copy and the advance. -/
theorem exec_save_eq_next_iff (rA rB : Reg) (s t : State) :
    exec (.save rA rB) s = .next t ↔
      (s.reg rA).toNat < s.disk.sectors ∧ t = (s.memoryToSector (s.reg rA).toNat (s.reg rB)).advance 3 := by
  rw [← Disk.hasSector_iff]
  exact guardedFinish_eq_next_iff _ _ _ _

/-- After a load, byte k of its window is byte k of the sector (46_disk R160). -/
theorem byteAt_window_of_load {rA rB : Reg} {s t : State} (he : exec (.load rA rB) s = .next t) {k : Nat} (hk : k < 512) :
    t.byteAt (BitVec.ofNat 16 ((s.reg rB).toNat + k)) = s.disk.byteAt (s.reg rA).toNat k := by
  obtain ⟨-, rfl⟩ := (exec_load_eq_next_iff rA rB s t).mp he
  rw [byteAt_advance]
  exact byteAt_sectorToMemory_inside _ _ _ _ k hk (BitVec.toNat_ofNat _ _)

/-- After a save, byte k of the sector is byte k of the window (46_disk R162). -/
theorem diskByteAt_of_save {rA rB : Reg} {s t : State} (he : exec (.save rA rB) s = .next t) {k : Nat} (hk : k < 512) :
    t.disk.byteAt (s.reg rA).toNat k = s.byteAt (BitVec.ofNat 16 ((s.reg rB).toNat + k)) := by
  obtain ⟨-, rfl⟩ := (exec_save_eq_next_iff rA rB s t).mp he
  rw [advance_disk]
  exact diskByteAt_memoryToSector_inside _ _ _ _ k hk (BitVec.toNat_ofNat _ _)

/-- Settles O20: the load's window reads the sector, the disk is the one the save left, and there the sector reads the
save's window. -/
theorem loadAfterSaveReturnsTheSavedBytes : Obligations.LoadAfterSaveReturnsTheSavedBytes := by
  intro rA rB rC rD s s' u u' hsave hdisk hsector hload k hk
  calc u'.byteAt (BitVec.ofNat 16 ((u.reg rD).toNat + k))
      = u.disk.byteAt (u.reg rC).toNat k := byteAt_window_of_load hload hk
    _ = s'.disk.byteAt (s.reg rA).toNat k := by rw [hdisk, hsector]
    _ = s.byteAt (BitVec.ofNat 16 ((s.reg rB).toNat + k)) := diskByteAt_of_save hsave hk

end Sys2Proof.Machine
end

section
/-! The encoder and the decoder undo one another (30_encoding R82). -/

namespace Sys2Proof

open Sys2Proof.Machine

/-! ### The bytes of each format -/

theorem formatOf_eq_immediate_iff (o : Opcode) : formatOf o = .immediate ↔ o = .movi := by
  cases o <;> decide

theorem encode_of_registers {i : Instr} (h : formatOf (opcodeOf i) = .registers) :
    encode i = [joinNibbles (nibbleOfOpcode (opcodeOf i)) (fieldsOfInstr i).rA,
      joinNibbles (fieldsOfInstr i).rB (fieldsOfInstr i).rC, 0x00#8] := by
  simp only [encode, h]

theorem encode_movi (a : Reg) (v : Word) :
    encode (.movi a v) = [joinNibbles (nibbleOfOpcode .movi) a, highByte v, lowByte v] := rfl

theorem exists_movi_of_immediate {i : Instr} (h : formatOf (opcodeOf i) = .immediate) : ∃ a v, i = .movi a v := by
  cases i with
  | movi a v => exact ⟨a, v, rfl⟩
  | _ => cases h

theorem lowByte_eq_ofNat (v : Word) : lowByte v = BitVec.ofNat 8 v.toNat := by
  apply BitVec.eq_of_toNat_eq
  rw [lowByte_toNat, BitVec.toNat_ofNat]

/-! ### Decoding an encoded instruction -/

/-- An instruction of format R is rebuilt from its registers: it does not use the immediate. -/
theorem assemble_registers {i : Instr} (h : formatOf (opcodeOf i) = .registers) (v : Word) :
    assemble (opcodeOf i) { fieldsOfInstr i with imm16 := v } = i := by
  cases i with
  | movi a w => cases h
  | _ => rfl

theorem decodeBytes_joinNibbles (o : Opcode) (a : Reg) (b2 b3 : Byte) :
    decodeBytes (joinNibbles (nibbleOfOpcode o) a) b2 b3 =
      some (assemble o (fieldsOf (joinNibbles (nibbleOfOpcode o) a) b2 b3)) :=
  decodeBytes_of_opcode (by simp) b2 b3

theorem decode_of_decodeBytes {b1 b2 b3 : Byte} {i : Instr} (h : decodeBytes b1 b2 b3 = some i) (rest : List Byte) :
    decode (b1 :: b2 :: b3 :: rest) = .instr i rest := by
  simp only [decode, h]

theorem decode_encode_append (i : Instr) (rest : List Byte) : decode (encode i ++ rest) = .instr i rest := by
  cases hf : formatOf (opcodeOf i) with
  | registers =>
    rw [encode_of_registers hf]
    apply decode_of_decodeBytes
    rw [decodeBytes_joinNibbles, fieldsOf_registers]
    exact congrArg some (assemble_registers hf _)
  | immediate =>
    obtain ⟨a, v, rfl⟩ := exists_movi_of_immediate hf
    rw [encode_movi]
    apply decode_of_decodeBytes
    rw [decodeBytes_joinNibbles]
    simp only [assemble, fieldsOf, lowNibble_joinNibbles, joinBytes_bytes]

/-! ### Encoding what three bytes decode to -/

/-- The encoder emits canonical bytes: the lemmas of `Laws.Encoding`, one per constructor, put together. -/
theorem encoding_canonical (i : Instr) : Laws.Encoding.Statement i := by
  cases i with
  | nop => exact Laws.Encoding.nop
  | mov a b => exact Laws.Encoding.mov a b
  | movi a v => exact Laws.Encoding.movi a v
  | add a b => exact Laws.Encoding.add a b
  | sub a b => exact Laws.Encoding.sub a b
  | mul a b => exact Laws.Encoding.mul a b
  | div a b => exact Laws.Encoding.div a b
  | out a b => exact Laws.Encoding.out a b
  | je a b c => exact Laws.Encoding.je a b c
  | jne a b c => exact Laws.Encoding.jne a b c
  | peek a b c => exact Laws.Encoding.peek a b c
  | poke a b c => exact Laws.Encoding.poke a b c
  | load a b => exact Laws.Encoding.load a b
  | save a b => exact Laws.Encoding.save a b
  | pop a => exact Laws.Encoding.pop a
  | push a => exact Laws.Encoding.push a

theorem canonicalBytes_of_encode {i : Instr} {b1 b2 b3 : Byte} (h : encode i = [b1, b2, b3]) :
    canonicalBytes b1 b2 b3 = true := by
  obtain ⟨c1, c2, c3, hc, hcanon⟩ := encoding_canonical i
  obtain ⟨rfl, rfl, rfl⟩ : c1 = b1 ∧ c2 = b2 ∧ c3 = b3 := by simpa using hc.symm.trans h
  exact hcanon

theorem exists_decodeBytes (b1 b2 b3 : Byte) : ∃ i, decodeBytes b1 b2 b3 = some i := by
  obtain ⟨o, ho⟩ := Option.isSome_iff_exists.mp (opcodeOfNibble_isSome (highNibble b1))
  exact ⟨_, decodeBytes_of_opcode ho b2 b3⟩

theorem exists_opcode_of_decodeBytes {b1 b2 b3 : Byte} {i : Instr} (h : decodeBytes b1 b2 b3 = some i) :
    ∃ o, opcodeOfNibble (highNibble b1) = some o ∧ i = assemble o (fieldsOf b1 b2 b3) := by
  obtain ⟨o, ho, hi⟩ := Option.map_eq_some_iff.mp h
  exact ⟨o, ho, hi.symm⟩

@[simp] theorem opcodeOf_assemble (o : Opcode) (f : Fields) : opcodeOf (assemble o f) = o := by
  cases o <;> rfl

@[simp] theorem highNibble_zero : highNibble 0#8 = 0 := rfl
@[simp] theorem lowNibble_zero : lowNibble 0#8 = 0 := rfl

/-- In canonical bytes of format R a field that the opcode drops is already 0, so the instruction keeps all three register
fields of the bytes, and byte 3 is 0. -/
theorem canonical_registers {b1 b2 b3 : Byte} {o : Opcode} (ho : opcodeOfNibble (highNibble b1) = some o)
    (hf : formatOf o = .registers) (hc : canonicalBytes b1 b2 b3 = true) :
    fieldsOfInstr (assemble o (fieldsOf b1 b2 b3)) = { fieldsOf b1 b2 b3 with imm16 := 0 } ∧ b3 = 0x00#8 := by
  cases o with
  | movi => cases hf
  | nop =>
    obtain ⟨⟨hA, rfl⟩, rfl⟩ : (lowNibble b1 = 0 ∧ b2 = 0#8) ∧ b3 = 0#8 := by simpa [canonicalBytes, ho] using hc
    simp [assemble, fieldsOfInstr, fieldsOf, hA]
  | pop | push =>
    obtain ⟨rfl, rfl⟩ : b2 = 0#8 ∧ b3 = 0#8 := by simpa [canonicalBytes, ho] using hc
    simp [assemble, fieldsOfInstr, fieldsOf]
  | je | jne | peek | poke =>
    obtain rfl : b3 = 0#8 := by simpa [canonicalBytes, ho] using hc
    exact ⟨rfl, rfl⟩
  | mov | add | sub | mul | div | out | load | save =>
    obtain ⟨hC, rfl⟩ : lowNibble b2 = 0 ∧ b3 = 0#8 := by simpa [canonicalBytes, ho] using hc
    simp [assemble, fieldsOfInstr, fieldsOf, hC]

theorem encode_assemble_of_canonical {b1 b2 b3 : Byte} {o : Opcode} (ho : opcodeOfNibble (highNibble b1) = some o)
    (hc : canonicalBytes b1 b2 b3 = true) : encode (assemble o (fieldsOf b1 b2 b3)) = [b1, b2, b3] := by
  have hn : nibbleOfOpcode o = highNibble b1 := nibbleOfOpcode_of_some ho
  cases hf : formatOf o with
  | registers =>
    obtain ⟨hfields, rfl⟩ := canonical_registers ho hf hc
    rw [encode_of_registers (by rwa [opcodeOf_assemble]), opcodeOf_assemble, hfields, hn]
    simp only [fieldsOf, joinNibbles_nibbles]
  | immediate =>
    obtain rfl := (formatOf_eq_immediate_iff o).mp hf
    rw [assemble, encode_movi, hn]
    simp only [fieldsOf, joinNibbles_nibbles, highByte_joinBytes, lowByte_joinBytes]

theorem encode_eq_iff_canonical {b1 b2 b3 : Byte} {i : Instr} (h : decodeBytes b1 b2 b3 = some i) :
    encode i = [b1, b2, b3] ↔ canonicalBytes b1 b2 b3 = true := by
  obtain ⟨o, ho, rfl⟩ := exists_opcode_of_decodeBytes h
  exact ⟨canonicalBytes_of_encode, encode_assemble_of_canonical ho⟩

/-- Settles O1: the bytes of each format are the encoder's own; an encoded instruction decodes to the opcode and the fields
it was built from; and the bytes come back when no ignored field loses a bit. -/
theorem encoderAndDecoderAreInverse : Obligations.EncoderAndDecoderAreInverse := by
  refine ⟨fun i => ⟨encode_of_registers, fun hf => ?_⟩, decode_encode_append, fun _ _ _ _ => encode_eq_iff_canonical⟩
  obtain ⟨a, v, rfl⟩ := exists_movi_of_immediate hf
  rw [encode_movi, lowByte_eq_ofNat]
  rfl

end Sys2Proof
end

section
/-! The unknown-opcode halt is unreachable (30_encoding R83): which halts the end of an instruction can raise. -/

namespace Sys2Proof.Machine

/-- The run state goes on as in `s`, or is one of the two halts that an instruction or the fetch bound can raise. -/
def RunGoesOnOrHalts (s t : State) : Prop :=
  t.run = s.run ∨ t.run = .halted .divideByZero ∨ t.run = .halted .pcOutOfBounds

/-- Wherever the result is a state, its run state goes on as in `s` or is a halt other than the unknown opcode. -/
def HaltsOnlyKnown (s : State) (r : Result) : Prop := ∀ t, r = .next t → RunGoesOnOrHalts s t

section ends
variable {s u : State}

theorem haltsOnlyKnown_fault (f : Fault) : HaltsOnlyKnown s (.fault f) := fun _ he => nomatch he

theorem haltsOnlyKnown_next (h : RunGoesOnOrHalts s u) : HaltsOnlyKnown s (.next u) := by
  rintro _ ⟨⟩
  exact h

theorem run_advance (s : State) (n : Nat) : (s.advance n).run = s.run ∨ (s.advance n).run = .halted .pcOutOfBounds := by
  obtain ⟨hmoves, hhalts⟩ := advance_pcMoves s n
  rcases Nat.lt_or_ge 0xFFFF (s.pc.toNat + n) with h | h
  · exact .inr (hhalts h).2
  · exact .inl (hmoves h).2

theorem haltsOnlyKnown_finish (n : Nat) (h : u.run = s.run) : HaltsOnlyKnown s (finish n u) :=
  haltsOnlyKnown_next ((run_advance u n).imp (·.trans h) .inr)

theorem haltsOnlyKnown_finishJump (jumped : Bool) (h : u.run = s.run) : HaltsOnlyKnown s (finishJump jumped u) := by
  cases jumped with
  | true => exact haltsOnlyKnown_next (.inl h)
  | false => exact haltsOnlyKnown_finish _ h

theorem haltsOnlyKnown_branchIf (taken : Bool) (a : Word) : HaltsOnlyKnown s (branchIf taken a s) := by
  cases taken with
  | true => exact haltsOnlyKnown_finishJump true (setReg_run s _ a)
  | false => exact haltsOnlyKnown_finishJump false rfl

/-- A check that faults before the instruction raises no halt of its own. -/
theorem haltsOnlyKnown_guard {r : Result} (ok : Bool) (f : Fault) (h : HaltsOnlyKnown s r) :
    HaltsOnlyKnown s (if ok then r else .fault f) := by
  cases ok with
  | true => exact h
  | false => exact haltsOnlyKnown_fault f

end ends

@[simp] theorem storeAt_run (s : State) (w : Access) (a v : Word) : (s.storeAt w a v).run = s.run := by
  cases w <;> rfl

/-- The only halts an instruction raises are the zero divisor and the advance that leaves 16 bits. -/
theorem haltsOnlyKnown_exec (i : Instr) (s : State) : HaltsOnlyKnown s (exec i s) := by
  cases i with
  | nop => exact haltsOnlyKnown_finish _ rfl
  | mov rA rB => exact haltsOnlyKnown_finishJump _ (setReg_run ..)
  | movi rA v => exact haltsOnlyKnown_finishJump _ (setReg_run ..)
  | add rA rB | sub rA rB | mul rA rB => exact haltsOnlyKnown_finish _ (setReg_run ..)
  | div rA rB =>
    rw [exec, execDiv]
    split
    · exact haltsOnlyKnown_next (.inr (.inl (halt_run ..)))
    · exact haltsOnlyKnown_finish _ (setReg_run ..)
  | out rA rB => exact haltsOnlyKnown_finish _ (emit_run ..)
  | je rA rB rC | jne rA rB rC => exact haltsOnlyKnown_branchIf _ _
  | peek rA rB rC =>
    rw [exec, execPeek]
    split
    · exact haltsOnlyKnown_fault _
    · exact haltsOnlyKnown_guard _ _ (haltsOnlyKnown_finish _ (setReg_run ..))
  | poke rA rB rC =>
    rw [exec, execPoke]
    split
    · exact haltsOnlyKnown_fault _
    · exact haltsOnlyKnown_guard _ _ (haltsOnlyKnown_finish _ (storeAt_run ..))
  | load rA rB => exact haltsOnlyKnown_guard _ _ (haltsOnlyKnown_finish _ (sectorToMemory_run ..))
  | save rA rB => exact haltsOnlyKnown_guard _ _ (haltsOnlyKnown_finish _ (memoryToSector_run ..))
  | pop rA => exact haltsOnlyKnown_guard _ _ (haltsOnlyKnown_finishJump _ (by simp))
  | push rA => exact haltsOnlyKnown_guard _ _ (haltsOnlyKnown_finish _ (by simp))

/-- The cycle's unknown-opcode arm is dead, since every three bytes decode. -/
theorem haltsOnlyKnown_cycle (s : State) : HaltsOnlyKnown s (cycle s) := by
  obtain ⟨i, hi⟩ : ∃ i, s.instrAt s.pc = some i := exists_decodeBytes _ _ _
  simp only [cycle, hi]
  split
  · exact haltsOnlyKnown_exec i s
  · exact haltsOnlyKnown_next (.inr (.inr (halt_run ..)))

theorem RunGoesOnOrHalts.run_ne_unknownOpcode {s t : State} (hs : s.run = .running) (h : RunGoesOnOrHalts s t) :
    t.run ≠ .halted .unknownOpcode := by
  obtain h | h | h := h
  · simp [h, hs]
  · simp [h]
  · simp [h]

theorem step_run_ne_unknownOpcode {s t : State} (he : step s = .next t) : t.run ≠ .halted .unknownOpcode := by
  obtain ⟨hrun, ⟨-, hc⟩ | ⟨rest, -, hc⟩ | ⟨code, rest, -, rfl⟩ | ⟨rest, -, rfl⟩⟩ := step_cases he
  · exact (haltsOnlyKnown_cycle s t hc).run_ne_unknownOpcode hrun
  · exact (haltsOnlyKnown_cycle (s.setTurns rest) t hc).run_ne_unknownOpcode hrun
  · simp [hrun]
  · simp

/-- Settles O3: the opcode map is full, so the cycle never takes its unknown-opcode arm, and nothing else raises that
halt. -/
theorem noBytesAreAnUnknownOpcode : Obligations.NoBytesAreAnUnknownOpcode :=
  ⟨exists_decodeBytes, fun _ _ => step_run_ne_unknownOpcode⟩

end Sys2Proof.Machine
end

section
/-! The no-op (40_cycle R105), and what the advance at the end of a cycle leaves unchanged (40_cycle R100 step 7). -/

namespace Sys2Proof.Machine

open Sys2Proof.Safety

theorem sameRegisters_advance (s : State) (n : Nat) : SameRegisters s (s.advance n) := reg_advance s n

theorem sameMemory_advance (s : State) (n : Nat) : SameMemory s (s.advance n) := byteAt_advance s n

theorem sameDevices_advance (s : State) (n : Nat) : SameDevices s (s.advance n) :=
  ⟨advance_disk s n, advance_out s n, advance_turns s n⟩

/-- The advance of a no-op is 1, where every other instruction's is 3 (40_cycle R104, R105). -/
theorem exec_nop (s : State) : exec .nop s = .next (s.advance 1) := rfl

/-- Settles O5: a no-op is the advance by 1 alone, which from a pc of at most 0xFFFE stays within 16 bits. -/
theorem nopMovesThePcByExactlyOne : Obligations.NopMovesThePcByExactlyOne := by
  intro s hpc
  have hfits : s.pc.toNat + 1 ≤ 0xFFFF := by omega
  obtain ⟨hmoves, hrun⟩ := (advance_pcMoves s 1).1 hfits
  exact ⟨s.advance 1, exec_nop s, hmoves, hrun, sameRegisters_advance s 1, sameMemory_advance s 1, sameDevices_advance s 1⟩

end Sys2Proof.Machine
end

section
/-! The fatal halt (60_exceptions R185): what it leaves unchanged and what its record holds; the zero divisor (R182). -/

namespace Sys2Proof.Machine

open Sys2Proof.Safety

theorem sameMemory_halt (s : State) (c : HaltCause) : SameMemory s (s.halt c) := byteAt_halt s c

theorem sameDevices_halt (s : State) (c : HaltCause) : SameDevices s (s.halt c) :=
  ⟨halt_disk s c, halt_out s c, halt_turns s c⟩

/-- The record is read from the halted state, and yet it is that of the state before the halt. -/
theorem haltRecord_halt (s : State) (c : HaltCause) :
    (s.halt c).haltRecord = some { cause := c, regs := s.regs, latch := s.byteAt Config.keyboardAddress } := rfl

/-- The handler tests the divisor before it writes anything (42_alu R133). -/
theorem exec_div_of_eq_zero {rA rB : Reg} {s : State} (h : s.reg rB = 0#16) :
    exec (.div rA rB) s = .next (s.halt .divideByZero) := if_pos h

/-- Settles O9: a zero divisor is the fatal halt alone, with no write and no advance of the pc. -/
theorem divByZeroHaltsBeforeAnyWrite : Obligations.DivByZeroHaltsBeforeAnyWrite := by
  intro rA rB s hzero
  exact ⟨s.halt .divideByZero, exec_div_of_eq_zero hzero, halt_run s _, reg_halt s _, sameMemory_halt s _,
    sameDevices_halt s _, _, haltRecord_halt s _, rfl, rfl⟩

end Sys2Proof.Machine
end

section
/-! The invariant of the state (10_state section 7): every shared operation keeps it, hence every step; and the reset
state with any boot ROM and disk meets it (10_state R38). -/

namespace Sys2Proof.Machine

open Sys2Proof.Safety

theorem invariant_iff (s : State) : Invariant s = true ↔ Memory.wf s.mem = true ∧ s.disk.wf = true :=
  Bool.and_eq_true_iff

/-- Every operation writes bytes at existing positions only, and leaves the disk its size. -/
theorem keptByOps_invariant : KeptByOps fun s => Invariant s = true where
  setReg _ _ _ h := h
  emit _ _ _ h := h
  halt _ _ h := h
  setByte s a b h := by
    obtain ⟨hmem, hdisk⟩ := (invariant_iff s).mp h
    exact (invariant_iff _).mpr ⟨memory_wf_setByte s a b hmem, hdisk⟩
  load s n a _ h := by
    obtain ⟨hmem, hdisk⟩ := (invariant_iff s).mp h
    exact (invariant_iff _).mpr ⟨memory_wf_sectorToMemory s n a hmem, by rwa [sectorToMemory_disk]⟩
  save s n a hn h := by
    obtain ⟨hmem, hdisk⟩ := (invariant_iff s).mp h
    exact (invariant_iff _).mpr ⟨by rwa [memoryToSector_mem], disk_wf_memoryToSector s n a hn hdisk⟩

/-- Settles O36: every step is made of operations that keep the invariant; the turns and the host's quit touch neither
memory nor disk. -/
theorem everyStepKeepsTheInvariant : Obligations.EveryStepKeepsTheInvariant :=
  fun _ _ hinv he => keptByOps_invariant.step (fun _ _ h => h) (fun _ h => h) hinv he

theorem keptByOps_sectors (n : Nat) : KeptByOps fun s => s.disk.sectors = n where
  setReg _ _ _ h := h
  setByte _ _ _ h := h
  emit _ _ _ h := h
  load _ _ _ _ h := by rwa [sectorToMemory_disk]
  save _ _ _ _ h := by rwa [memoryToSector_sectors]
  halt _ _ h := h

/-- Settles O38: a save writes the disk's bytes and not its size, and no other operation writes the disk. -/
theorem theDiskKeepsItsSize : Obligations.TheDiskKeepsItsSize :=
  fun s _ he => (keptByOps_sectors s.disk.sectors).step (fun _ _ h => h) (fun _ h => h) rfl he

/-! ### The reset state -/

theorem fst_lt_of_mem_romEntries {rom : List Byte} {e : Nat × Byte} (he : e ∈ romEntries rom) : e.1 < rom.length := by
  have hfst : e.1 ∈ (romEntries rom).map Prod.fst := List.mem_map_of_mem he
  rwa [map_fst_romEntries, List.mem_range] at hfst

theorem byteAt_boot_of_ge (rom : List Byte) (disk : Disk) (a : Word) (h : rom.length ≤ a.toNat) :
    (State.boot rom disk).byteAt a = 0#8 := by
  rw [State.byteAt, boot_mem, Cells.read_writeMany_other]
  · rfl
  · intro e he
    have := fst_lt_of_mem_romEntries he
    omega

theorem memory_wf_boot (rom : List Byte) (disk : Disk) (hrom : rom.length ≤ 65536) :
    Memory.wf (State.boot rom disk).mem = true :=
  Cells.wfFrom_writeMany _ [] (fun _ he => (fst_lt_of_mem_romEntries he).trans_le hrom) rfl

theorem disk_wf_reset : State.reset.disk.wf = true := by decide

/-- Settles O34: no address beyond the ROM is written, and the other fields are those of `State.reset`. -/
theorem resetLeavesTheRestOfMemoryZero : Obligations.ResetLeavesTheRestOfMemoryZero :=
  ⟨fun rom disk _ => ⟨byteAt_boot_of_ge rom disk, rfl, rfl, rfl⟩, rfl⟩

/-- Settles O35: the ROM's bytes go to addresses below the size of memory, and the disk is the one supplied. -/
theorem resetMeetsTheInvariant : Obligations.ResetMeetsTheInvariant :=
  ⟨fun rom disk hfits hdisk =>
    (invariant_iff _).mpr ⟨memory_wf_boot rom disk ((bootRomWellFormed_iff rom).mp hfits), hdisk⟩,
    (invariant_iff _).mpr ⟨memory_wf_reset, disk_wf_reset⟩⟩

end Sys2Proof.Machine
end

section
/-! What the end of an instruction leaves unchanged, in terms of the state the instruction began in (40_cycle R100 step 7,
R104, R106, R107). -/

namespace Sys2Proof.Machine

open Sys2Proof.Safety

section frame
variable {s u : State}

theorem sameRegisters_of_regs (h : u.regs = s.regs) : SameRegisters s u := fun r _ => reg_congr h r

theorem sameRegisters_advance_of (h : SameRegisters s u) (n : Nat) : SameRegisters s (u.advance n) :=
  fun r hr => (reg_advance u n r hr).trans (h r hr)

theorem sameMemory_advance_of (h : SameMemory s u) (n : Nat) : SameMemory s (u.advance n) :=
  fun a => (byteAt_advance u n a).trans (h a)

theorem sameDevices_advance_of (h : SameDevices s u) (n : Nat) : SameDevices s (u.advance n) := by
  obtain ⟨hdisk, hout, hturns⟩ := h
  exact ⟨(advance_disk u n).trans hdisk, (advance_out u n).trans hout, (advance_turns u n).trans hturns⟩

/-- The advance starts from the pc the handler left, and the run goes on as before the handler. -/
theorem pcMoves_advance_of {p : Word} (hrun : u.run = s.run) (hpc : u.pc = p) (n : Nat) : PcMoves n p s (u.advance n) := by
  subst hpc
  obtain ⟨hmoves, hhalts⟩ := advance_pcMoves u n
  exact ⟨fun h => ⟨(hmoves h).1, (hmoves h).2.trans hrun⟩, hhalts⟩

theorem pc_congr (h : u.regs = s.regs) : u.pc = s.pc := reg_congr h 15

/-- After a handler that writes no register and does not halt, an advance that fits in 16 bits. -/
theorem pc_run_advance_of_fits (hregs : u.regs = s.regs) (hrun : u.run = s.run) (hfits : s.pc.toNat + 3 ≤ 0xFFFF) :
    (u.advance 3).pc = s.pc + 3#16 ∧ (u.advance 3).run = s.run := by
  obtain ⟨hmoves, hgoesOn⟩ := (pcMoves_advance_of hrun (pc_congr hregs) 3).1 hfits
  exact ⟨by bv_omega, hgoesOn⟩

theorem pc_setReg (s : State) (r : Reg) (v : Word) : (s.setReg r v).pc = if r = 15 then v else s.pc := by
  simp only [pc_eq_reg, reg_setReg, eq_comm]

theorem sameMemory_setReg (s : State) (r : Reg) (v : Word) : SameMemory s (s.setReg r v) := byteAt_setReg s r v

theorem sameDevices_setReg (s : State) (r : Reg) (v : Word) : SameDevices s (s.setReg r v) := ⟨rfl, rfl, rfl⟩

/-- One register write and the advance: the destination of an instruction outside the jump set. -/
theorem computesOnly_advance (rA : Reg) (v : Word) (s : State) : ComputesOnly rA v s ((s.setReg rA v).advance 3) := by
  refine ⟨fun r hr => ?_, pcMoves_advance_of (setReg_run ..) (pc_setReg s rA v) 3,
    sameMemory_advance_of (sameMemory_setReg s rA v) 3, sameDevices_advance_of (sameDevices_setReg s rA v) 3⟩
  rw [reg_advance _ _ r hr, reg_setReg]

theorem pcJumps_setReg (s : State) (v : Word) : PcJumps v s (s.setReg 15 v) := ⟨pc_setReg s 15 v, rfl⟩

/-- The destination of an instruction of the jump set: a jump with rA = 15, else the same write as outside the set. -/
theorem finishAssign_assignsOnly (rA : Reg) (v : Word) (s : State) :
    ∃ t, finishAssign rA v s = .next t ∧ AssignsOnly rA v s t := by
  rw [finishAssign_eq]
  refine ⟨_, rfl, ?_⟩
  by_cases h : rA = 15
  · subst h
    rw [if_pos rfl]
    refine ⟨fun r _ => reg_setReg s r 15 v, ?_, sameMemory_setReg s 15 v, sameDevices_setReg s 15 v⟩
    rw [if_pos rfl]
    exact pcJumps_setReg s v
  · obtain ⟨hregs, hpc, hmem, hdev⟩ := computesOnly_advance rA v s
    rw [if_neg h] at hpc ⊢
    exact ⟨hregs, by rwa [if_neg h], hmem, hdev⟩

end frame

end Sys2Proof.Machine
end

section
/-! mov, movi (41_move R121, R122), add, sub, mul, div (42_alu R130 to R138). -/

namespace Sys2Proof.Machine

open Sys2Proof.Safety

/-- Settles O6: both moves end by the write of a jump-set destination. -/
theorem movesWriteTheDestinationOrJump : Obligations.MovesWriteTheDestinationOrJump :=
  ⟨fun rA rB s => finishAssign_assignsOnly rA (s.reg rB) s, fun rA imm s => finishAssign_assignsOnly rA imm s⟩

theorem aluAdd_toNat (l r : Word) : (aluAdd l r).toNat = (l.toNat + r.toNat) % 65536 := BitVec.toNat_ofNat ..

theorem aluSub_toNat (l r : Word) : ((aluSub l r).toNat : Int) = (l.toNat - r.toNat : Int) % 65536 := by
  have hr := r.isLt
  simp only [aluSub, BitVec.toNat_ofNat]
  omega

theorem aluMul_toNat (l r : Word) : (aluMul l r).toNat = (l.toNat * r.toNat) % 65536 := BitVec.toNat_ofNat ..

/-- A quotient is at most its dividend, so it fits in 16 bits. -/
theorem aluDiv_toNat (l r : Word) : (aluDiv l r).toNat = l.toNat / r.toNat := by
  rw [aluDiv, BitVec.toNat_ofNat]
  exact Nat.mod_eq_of_lt ((Nat.div_le_self ..).trans_lt l.isLt)

/-- Settles O7: the three end by the write of the ALU's result. -/
theorem addSubMulWrapModulo65536 : Obligations.AddSubMulWrapModulo65536 := by
  intro rA rB s
  refine ⟨?_, ?_, ?_⟩
  · exact ⟨_, _, rfl, computesOnly_advance rA _ s, aluAdd_toNat _ _⟩
  · exact ⟨_, _, rfl, computesOnly_advance rA _ s, aluSub_toNat _ _⟩
  · exact ⟨_, _, rfl, computesOnly_advance rA _ s, aluMul_toNat _ _⟩

theorem exec_div_of_ne_zero {rA rB : Reg} {s : State} (h : s.reg rB ≠ 0#16) :
    exec (.div rA rB) s = .next ((s.setReg rA (aluDiv (s.reg rA) (s.reg rB))).advance 3) := if_neg h

theorem toNat_pos_of_ne_zero {v : Word} (h : v ≠ 0#16) : 0 < v.toNat :=
  Nat.pos_of_ne_zero fun h0 => h (BitVec.eq_of_toNat_eq h0)

/-- Settles O8: the quotient of two naturals is the floor, and the ALU's result is that quotient. -/
theorem divWritesTheUnsignedFloorQuotient : Obligations.DivWritesTheUnsignedFloorQuotient := by
  intro rA rB s hdivisor
  refine ⟨_, _, exec_div_of_ne_zero hdivisor, computesOnly_advance rA _ s, ?_, ?_⟩
  · rw [aluDiv_toNat]
    exact Nat.div_mul_le_self _ _
  · rw [aluDiv_toNat]
    exact (Nat.div_lt_iff_lt_mul (toNat_pos_of_ne_zero hdivisor)).mp (Nat.lt_succ_self _)

/-- Settles O10: rA holds the quotient, which is zero exactly when the dividend is less than the divisor. -/
theorem divDecidesUnsignedOrder : Obligations.DivDecidesUnsignedOrder := by
  intro rA rB s t hpc hdivisor he
  rw [exec_div_of_ne_zero hdivisor] at he
  cases he
  obtain ⟨hregs, -, -, -⟩ := computesOnly_advance rA (aluDiv (s.reg rA) (s.reg rB)) s
  rw [hregs rA hpc, if_pos rfl, ← BitVec.toNat_inj, aluDiv_toNat]
  exact Nat.div_eq_zero_iff_lt (toNat_pos_of_ne_zero hdivisor)

end Sys2Proof.Machine
end

section
/-! out (43_out R140), what it adds to the console (43_out R142, R143), and the branches (44_branch R145 to R147). -/

namespace Sys2Proof.Machine

open Sys2Proof.Safety

/-! ### Output -/

theorem exec_out (rA rB : Reg) (s : State) :
    exec (.out rA rB) s = .next ((s.emit (s.reg rA) (s.reg rB)).advance 3) := rfl

/-- Settles O11: the event is emitted, then the pc advances. -/
theorem outAppendsOneEventOnAnyPort : Obligations.OutAppendsOneEventOnAnyPort := by
  intro rA rB s
  refine ⟨_, exec_out rA rB s, ?_, sameRegisters_advance_of (sameRegisters_of_regs (emit_regs ..)) 3,
    pcMoves_advance_of (emit_run ..) (pc_congr (emit_regs ..)) 3, sameMemory_advance_of (byteAt_emit s _ _) 3, ?_, ?_⟩
  · rw [advance_out, emit_out]
  · rw [advance_disk, emit_disk]
  · rw [advance_turns, emit_turns]

/-- What one event adds to the console: its data where the port has a function, else nothing. -/
theorem console_append (ports : EchoPorts) {s t : State} {port data : Word}
    (h : t.out = s.out ++ [{ port := port, data := data }]) :
    t.console ports = s.console ports ++ ((echoOfPort ports port).map fun f => (f, data)).toList := by
  rw [State.console, State.console, h, List.filterMap_append]
  cases he : echoOfPort ports port <;> simp [he]

section ports
variable {ports : EchoPorts}

theorem echoPortsWellFormed_iff :
    echoPortsWellFormed ports = true ↔ ports.dec ≠ 1#16 ∧ ports.hex ≠ 1#16 ∧ ports.hex ≠ ports.dec := by
  simp [echoPortsWellFormed, Config.portChar, and_assoc]

theorem echoOfPort_char : echoOfPort ports 1#16 = some .character := if_pos rfl

theorem echoOfPort_dec (hwf : echoPortsWellFormed ports = true) : echoOfPort ports ports.dec = some .decimal := by
  obtain ⟨hdec, -, -⟩ := echoPortsWellFormed_iff.mp hwf
  simp [echoOfPort, Config.portChar, hdec]

theorem echoOfPort_hex (hwf : echoPortsWellFormed ports = true) : echoOfPort ports ports.hex = some .hexadecimal := by
  obtain ⟨-, hhex, hne⟩ := echoPortsWellFormed_iff.mp hwf
  simp [echoOfPort, Config.portChar, hhex, hne]

theorem echoOfPort_other {port : Word} (hchar : port ≠ 1#16) (hdec : port ≠ ports.dec) (hhex : port ≠ ports.hex) :
    echoOfPort ports port = none := by
  simp [echoOfPort, Config.portChar, hchar, hdec, hhex]

end ports

/-- Settles O12: the console gains what the decoder makes of the one event, and the decoder's four cases exclude one another
under well-formed ports. -/
theorem outReachesTheConsoleByItsPort : Obligations.OutReachesTheConsoleByItsPort := by
  intro ports rA rB s t hwf he
  have hout : t.out = s.out ++ [{ port := s.reg rA, data := s.reg rB }] := by
    cases he
    rw [advance_out, emit_out]
  rw [console_append ports hout]
  refine ⟨fun h => ?_, fun h => ?_, fun h => ?_, fun hchar hdec hhex => ?_⟩
  · rw [h, echoOfPort_char]
    rfl
  · rw [h, echoOfPort_dec hwf]
    rfl
  · rw [h, echoOfPort_hex hwf]
    rfl
  · rw [echoOfPort_other hchar hdec hhex]
    exact List.append_nil _

/-! ### Branches -/

/-- Both branches, by the condition they test: the one register a branch can write is the pc. -/
theorem branchIf_effect (p : Prop) [Decidable p] (target : Word) (s : State) :
    ∃ t, branchIf (decide p) target s = .next t ∧ SameRegisters s t ∧ SameMemory s t ∧ SameDevices s t ∧
      (p → PcJumps target s t) ∧ (¬ p → PcMoves 3 s.pc s t) := by
  by_cases h : p
  · rw [decide_eq_true h]
    refine ⟨s.setReg 15 target, rfl, fun r hr => ?_, sameMemory_setReg s 15 target, sameDevices_setReg s 15 target,
      fun _ => pcJumps_setReg s target, fun hn => absurd h hn⟩
    rw [reg_setReg, if_neg hr]
  · rw [decide_eq_false h]
    exact ⟨s.advance 3, rfl, sameRegisters_advance s 3, sameMemory_advance s 3, sameDevices_advance s 3,
      fun hp => absurd hp h, fun _ => advance_pcMoves s 3⟩

/-- Settles O13: each branch is `branchIf` on its own comparison. -/
theorem branchesCompareAndJump : Obligations.BranchesCompareAndJump := by
  intro rA rB rC s
  obtain ⟨t, he, hregs, hmem, hdev, htaken, hnot⟩ := branchIf_effect (s.reg rA ≠ s.reg rB) (s.reg rC) s
  exact ⟨branchIf_effect (s.reg rA = s.reg rB) (s.reg rC) s,
    t, he, hregs, hmem, hdev, htaken, fun heq => hnot (not_not_intro heq)⟩

end Sys2Proof.Machine
end

section
/-! peek and poke (45_peek_poke R150 to R153): what each answers in each mode, and a store over the next instruction
(20_memory R61). -/

namespace Sys2Proof.Machine

open Sys2Proof.Safety

/-! ### The cases of the two accesses -/

theorem wordFits_iff (a : Word) : wordFits a = true ↔ a ≠ 0xFFFF#16 := decide_eq_true_iff

section modes
variable {rA rB rC : Reg} {s : State}

theorem exec_peek_word (hmode : s.reg rC = 0#16) (ha : s.reg rB ≠ 0xFFFF#16) :
    exec (.peek rA rB rC) s = finishCompute rA (s.wordAt (s.reg rB)) s := by
  simp [exec, execPeek, accessOfMode, accessFits, State.loadAt, wordFits_iff, hmode, ha]

theorem exec_peek_wordAtTop (hmode : s.reg rC = 0#16) (ha : s.reg rB = 0xFFFF#16) :
    exec (.peek rA rB rC) s = .fault .wordAtTop := by
  simp [exec, execPeek, accessOfMode, accessFits, wordFits_iff, hmode, ha]

theorem exec_peek_byte (hmode : s.reg rC = 1#16) :
    exec (.peek rA rB rC) s = finishCompute rA (zeroExtendByte (s.byteAt (s.reg rB))) s := by
  simp [exec, execPeek, accessOfMode, accessFits, State.loadAt, hmode]

theorem exec_peek_reserved (h0 : s.reg rC ≠ 0#16) (h1 : s.reg rC ≠ 1#16) :
    exec (.peek rA rB rC) s = .fault .reservedMode := by
  simp [exec, execPeek, accessOfMode, h0, h1]

theorem exec_poke_word (hmode : s.reg rC = 0#16) (ha : s.reg rB ≠ 0xFFFF#16) :
    exec (.poke rA rB rC) s = .next ((s.setWord (s.reg rB) (s.reg rA)).advance 3) := by
  simp [exec, execPoke, accessOfMode, accessFits, State.storeAt, wordFits_iff, finish_eq, Config.defaultStep, hmode, ha]

theorem exec_poke_wordAtTop (hmode : s.reg rC = 0#16) (ha : s.reg rB = 0xFFFF#16) :
    exec (.poke rA rB rC) s = .fault .wordAtTop := by
  simp [exec, execPoke, accessOfMode, accessFits, wordFits_iff, hmode, ha]

theorem exec_poke_byte (hmode : s.reg rC = 1#16) :
    exec (.poke rA rB rC) s = .next ((s.setByte (s.reg rB) (lowByte (s.reg rA))).advance 3) := by
  simp [exec, execPoke, accessOfMode, accessFits, State.storeAt, finish_eq, Config.defaultStep, hmode]

theorem exec_poke_reserved (h0 : s.reg rC ≠ 0#16) (h1 : s.reg rC ≠ 1#16) :
    exec (.poke rA rB rC) s = .fault .reservedMode := by
  simp [exec, execPoke, accessOfMode, h0, h1]

end modes

/-! ### What the two accesses do -/

/-- Settles O15: in either mode the value read is the one register write. -/
theorem peekReadsTheWordOrByte : Obligations.PeekReadsTheWordOrByte := by
  intro rA rB rC s
  refine ⟨fun hmode ha => ?_, fun hmode => ?_⟩
  · rw [exec_peek_word hmode ha]
    exact ⟨_, _, rfl, computesOnly_advance rA _ s, wordAt_toNat s _⟩
  · rw [exec_peek_byte hmode]
    exact ⟨_, _, rfl, computesOnly_advance rA _ s, zeroExtendByte_toNat _⟩

theorem sameDevices_setWord (s : State) (a v : Word) : SameDevices s (s.setWord a v) := ⟨rfl, rfl, rfl⟩
theorem sameDevices_setByte (s : State) (a : Word) (b : Byte) : SameDevices s (s.setByte a b) := ⟨rfl, rfl, rfl⟩

/-- Settles O16: in either mode the store is the one write before the advance. -/
theorem pokeStoresTheWordOrByte : Obligations.PokeStoresTheWordOrByte := by
  intro rA rB rC s
  refine ⟨fun hmode ha => ?_, fun hmode => ?_⟩
  · rw [exec_poke_word hmode ha]
    refine ⟨_, rfl, sameRegisters_advance_of (sameRegisters_of_regs (setWord_regs ..)) 3,
      pcMoves_advance_of (setWord_run ..) (pc_congr (setWord_regs ..)) 3,
      sameDevices_advance_of (sameDevices_setWord ..) 3, ?_, ?_, fun q hhigh hlow => ?_⟩
    · rw [byteAt_advance, byteAt_setWord_high, highByte_toNat]
    · rw [byteAt_advance, byteAt_setWord_low, lowByte_toNat]
    · rw [byteAt_advance, byteAt_setWord_other s _ _ q hhigh hlow]
  · rw [exec_poke_byte hmode]
    refine ⟨_, rfl, sameRegisters_advance_of (sameRegisters_of_regs (setByte_regs ..)) 3,
      pcMoves_advance_of (setByte_run ..) (pc_congr (setByte_regs ..)) 3,
      sameDevices_advance_of (sameDevices_setByte ..) 3, ?_, fun q hq => ?_⟩
    · rw [byteAt_advance, byteAt_setByte, if_pos rfl, lowByte_toNat]
    · rw [byteAt_advance, byteAt_setByte, if_neg hq]

end Sys2Proof.Machine
end

section
/-! load and save (46_disk R160, R162), and the stack (47_stack R170 to R173). -/

namespace Sys2Proof.Machine

open Sys2Proof.Safety

/-! ### Disk transfers -/

theorem sameDevices_sectorToMemory (s : State) (n : Nat) (a : Word) : SameDevices s (s.sectorToMemory n a) :=
  ⟨sectorToMemory_disk .., sectorToMemory_out .., sectorToMemory_turns ..⟩

/-- Settles O18: the load is the copy of the sector, then the advance. -/
theorem loadCopiesTheSectorToTheWindow : Obligations.LoadCopiesTheSectorToTheWindow := by
  intro rA rB s hsector
  have he := (exec_load_eq_next_iff rA rB s _).mpr ⟨hsector, rfl⟩
  refine ⟨_, he, sameRegisters_advance_of (sameRegisters_of_regs (sectorToMemory_regs ..)) 3,
    pcMoves_advance_of (sectorToMemory_run ..) (pc_congr (sectorToMemory_regs ..)) 3,
    sameDevices_advance_of (sameDevices_sectorToMemory ..) 3, fun k hk => byteAt_window_of_load he hk, fun q hq => ?_⟩
  rw [byteAt_advance, byteAt_sectorToMemory_outside s _ _ q hq]

/-- Settles O19: the save is the copy of the window, then the advance. -/
theorem saveCopiesTheWindowToTheSector : Obligations.SaveCopiesTheWindowToTheSector := by
  intro rA rB s hsector
  have he := (exec_save_eq_next_iff rA rB s _).mpr ⟨hsector, rfl⟩
  refine ⟨_, he, sameRegisters_advance_of (sameRegisters_of_regs (memoryToSector_regs ..)) 3,
    pcMoves_advance_of (memoryToSector_run ..) (pc_congr (memoryToSector_regs ..)) 3,
    sameMemory_advance_of (byteAt_memoryToSector s _ _) 3, ?_, ?_, ?_, fun k hk => diskByteAt_of_save he hk,
    fun n k hk hn => ?_⟩
  · rw [advance_out, memoryToSector_out]
  · rw [advance_turns, memoryToSector_turns]
  · rw [advance_disk, memoryToSector_sectors]
  · rw [advance_disk, diskByteAt_memoryToSector_outside s _ n _ k hk hn]

/-! ### The stack -/

theorem wordFits_push_iff (p : Word) : wordFits (p - 2#16) = true ↔ p ≠ 0x0001#16 := by
  rw [wordFits_iff]
  bv_omega

theorem wordAt_congr {s t : State} (h : t.mem = s.mem) (a : Word) : t.wordAt a = s.wordAt a := by
  rw [State.wordAt, State.wordAt, byteAt_congr h, byteAt_congr h]

section stack
variable {rA : Reg} {s : State}

theorem exec_pop (h : s.reg 14 ≠ 0xFFFF#16) :
    exec (.pop rA) s = finishAssign rA (s.wordAt (s.reg 14)) (s.setReg 14 (s.reg 14 + 2#16)) :=
  if_pos ((wordFits_iff _).mpr h)

theorem exec_pop_wordAtTop (h : s.reg 14 = 0xFFFF#16) : exec (.pop rA) s = .fault .wordAtTop :=
  if_neg (by rw [wordFits_iff, sp_eq_reg]; exact not_not_intro h)

theorem exec_push (h : s.reg 14 ≠ 0x0001#16) : exec (.push rA) s =
    .next (((s.setWord (s.reg 14 - 2#16) (s.reg rA)).setReg 14 (s.reg 14 - 2#16)).advance 3) :=
  if_pos ((wordFits_push_iff _).mpr h)

theorem exec_push_wordAtTop (h : s.reg 14 = 0x0001#16) : exec (.push rA) s = .fault .wordAtTop :=
  if_neg (by rw [wordFits_push_iff, sp_eq_reg]; exact not_not_intro h)

/-- What a pop that ends in a state has done: the pointer has moved, then the word has been assigned. -/
theorem assignsOnly_of_pop {t : State} (he : exec (.pop rA) s = .next t) :
    AssignsOnly rA (s.wordAt (s.reg 14)) (s.setReg 14 (s.reg 14 + 2#16)) t := by
  by_cases h : s.reg 14 = 0xFFFF#16
  · rw [exec_pop_wordAtTop h] at he
    cases he
  · obtain ⟨t', ht', hassigns⟩ := finishAssign_assignsOnly rA (s.wordAt (s.reg 14)) (s.setReg 14 (s.reg 14 + 2#16))
    rw [exec_pop h, ht'] at he
    cases he
    exact hassigns

/-- What a push that ends in a state has done. -/
theorem eq_of_push {t : State} (he : exec (.push rA) s = .next t) :
    t = ((s.setWord (s.reg 14 - 2#16) (s.reg rA)).setReg 14 (s.reg 14 - 2#16)).advance 3 := by
  by_cases h : s.reg 14 = 0x0001#16
  · rw [exec_push_wordAtTop h] at he
    cases he
  · rw [exec_push h] at he
    cases he
    rfl

end stack

/-- Settles O21: the word is assigned after the pointer has moved, so that with rA = 14 it stays in the pointer. -/
theorem popReadsTheWordAndMovesThePointerUp : Obligations.PopReadsTheWordAndMovesThePointerUp := by
  intro rA s hfits
  obtain ⟨t, ht, hregs, hpc, hmem, hdev⟩ :=
    finishAssign_assignsOnly rA (s.wordAt (s.reg 14)) (s.setReg 14 (s.reg 14 + 2#16))
  have hsp : t.reg 14 = if 14 = rA then s.wordAt (s.reg 14) else s.reg 14 + 2#16 := by
    rw [hregs 14 (by decide), reg_setReg, if_pos rfl]
  refine ⟨t, _, (exec_pop hfits).trans ht, wordAt_toNat s _, fun r h15 h14 => ?_, fun h => ?_, fun h => ?_, fun h => ?_,
    fun h => ?_, hmem, hdev⟩
  · rw [hregs r h15, reg_setReg, if_neg h14]
  · rw [hsp, if_pos h.symm]
  · rw [hsp, if_neg (Ne.symm h), BitVec.toNat_add]
    rfl
  · rwa [if_pos h] at hpc
  · rwa [if_neg h, pc_setReg] at hpc

/-- Settles O22: the word is stored in the slot, then the pointer is set to it. -/
theorem pushStoresTheWordAndMovesThePointerDown : Obligations.PushStoresTheWordAndMovesThePointerDown := by
  intro rA s hfits
  have hlow : s.reg 14 - 1#16 = s.reg 14 - 2#16 + 1#16 := by bv_omega
  refine ⟨_, exec_push hfits, ?_, fun r h15 h14 => ?_, pcMoves_advance_of rfl ?_ 3,
    sameDevices_advance_of ⟨rfl, rfl, rfl⟩ 3, ?_, ?_, fun q hq hq' => ?_⟩
  · rw [reg_advance _ _ 14 (by decide), reg_setReg, if_pos rfl]
  · rw [reg_advance _ _ r h15, reg_setReg, if_neg h14, reg_setWord]
  · rw [pc_setReg, if_neg (by decide), pc_congr (setWord_regs ..)]
  · rw [byteAt_advance, byteAt_setReg, byteAt_setWord_high, highByte_toNat]
  · rw [byteAt_advance, byteAt_setReg, hlow, byteAt_setWord_low, lowByte_toNat]
  · rw [byteAt_advance, byteAt_setReg, byteAt_setWord_other s _ _ q hq (hlow ▸ hq')]

/-- Settles O23: the pop reads the slot that the push wrote, and adds the 2 that the push took from the pointer. -/
theorem popAfterPushReturnsTheValue : Obligations.PopAfterPushReturnsTheValue := by
  intro rX rY s t u w hY hpush hsp hslot hpop
  have ht := eq_of_push hpush
  have htsp : t.reg 14 = s.reg 14 - 2#16 := by rw [ht, reg_advance _ _ 14 (by decide), reg_setReg, if_pos rfl]
  have htslot : t.wordAt (t.reg 14) = s.reg rX := by
    rw [htsp, ht, wordAt_congr (advance_mem ..), wordAt_congr (setReg_mem ..), wordAt_setWord]
  obtain ⟨hregs, hpc, -, -⟩ := assignsOnly_of_pop hpop
  rw [hsp, hslot, htslot] at hregs hpc
  refine ⟨fun h => ?_, fun h => ?_, ?_⟩
  · rw [hregs rY h, if_pos rfl]
  · rw [if_pos h] at hpc
    exact hpc.1
  · rw [hregs 14 (by decide), if_neg (Ne.symm hY), reg_setReg, if_pos rfl, htsp, BitVec.sub_add_cancel]

end Sys2Proof.Machine
end

section
/-! Where an instruction stops (60_exceptions R187, R189, R192): every instruction ends in a state, or in the one fault the
spec names for its operands. -/

namespace Sys2Proof.Machine

open Sys2Proof.Safety

/-- What the instruction answers is a state where the spec gives it a meaning, and else the fault the spec names. -/
def StopsAsSpecified (i : Instr) (s : State) (r : Result) : Prop :=
  (∃ t, r = .next t ∧ ∀ f, ¬ StopsBecause i s f) ∨ ∃ f, r = .fault f ∧ ∀ g, StopsBecause i s g ↔ g = f

section results
variable {i : Instr} {s : State} {r : Result}

theorem StopsAsSpecified.eq_fault_iff (h : StopsAsSpecified i s r) (f : Fault) : r = .fault f ↔ StopsBecause i s f := by
  obtain ⟨t, rfl, hnone⟩ | ⟨g, rfl, hiff⟩ := h
  · simp [hnone f]
  · simp [hiff f, eq_comm]

theorem StopsAsSpecified.ne_refused (h : StopsAsSpecified i s r) (e : Refusal) : r ≠ .refused e := by
  obtain ⟨t, rfl, -⟩ | ⟨f, rfl, -⟩ := h
  · nofun
  · nofun

theorem stopsAsSpecified_next (hr : ∃ t, r = .next t) (h : ∀ f, ¬ StopsBecause i s f) : StopsAsSpecified i s r := by
  obtain ⟨t, rfl⟩ := hr
  exact .inl ⟨t, rfl, h⟩

/-- An instruction with one condition to stop. -/
theorem stopsAsSpecified_of_iff {p : Prop} {f : Fault} (hstop : p → r = .fault f) (hgo : ¬ p → ∃ t, r = .next t)
    (hiff : ∀ g, StopsBecause i s g ↔ g = f ∧ p) : StopsAsSpecified i s r := by
  by_cases hp : p
  · exact .inr ⟨f, hstop hp, by simpa [hp] using hiff⟩
  · exact stopsAsSpecified_next (hgo hp) (by simp [hiff, hp])

/-- peek and poke, whose mode is examined before the address. -/
theorem stopsAsSpecified_access {rB rC : Reg}
    (hiff : ∀ g, StopsBecause i s g ↔ (g = .wordAtTop ∧ s.reg rC = 0#16 ∧ s.reg rB = 0xFFFF#16) ∨
      (g = .reservedMode ∧ s.reg rC ≠ 0#16 ∧ s.reg rC ≠ 1#16))
    (hword : s.reg rC = 0#16 → s.reg rB ≠ 0xFFFF#16 → ∃ t, r = .next t)
    (htop : s.reg rC = 0#16 → s.reg rB = 0xFFFF#16 → r = .fault .wordAtTop)
    (hbyte : s.reg rC = 1#16 → ∃ t, r = .next t)
    (hreserved : s.reg rC ≠ 0#16 → s.reg rC ≠ 1#16 → r = .fault .reservedMode) : StopsAsSpecified i s r := by
  by_cases h0 : s.reg rC = 0#16
  · exact stopsAsSpecified_of_iff (htop h0) (hword h0) (by simp [hiff, h0])
  · exact stopsAsSpecified_of_iff (p := s.reg rC ≠ 1#16) (hreserved h0) (fun h1 => hbyte (not_not.mp h1))
      (by simp [hiff, h0])

end results

theorem stopsAsSpecified_peek (rA rB rC : Reg) (s : State) :
    StopsAsSpecified (.peek rA rB rC) s (exec (.peek rA rB rC) s) :=
  stopsAsSpecified_access (fun g => by cases g <;> simp [StopsBecause])
    (fun h0 ha => ⟨_, exec_peek_word h0 ha⟩) exec_peek_wordAtTop (fun h1 => ⟨_, exec_peek_byte h1⟩) exec_peek_reserved

theorem stopsAsSpecified_poke (rA rB rC : Reg) (s : State) :
    StopsAsSpecified (.poke rA rB rC) s (exec (.poke rA rB rC) s) :=
  stopsAsSpecified_access (fun g => by cases g <;> simp [StopsBecause])
    (fun h0 ha => ⟨_, exec_poke_word h0 ha⟩) exec_poke_wordAtTop (fun h1 => ⟨_, exec_poke_byte h1⟩) exec_poke_reserved

/-- The disk has the sector, or load and save stop before the copy. -/
theorem stopsAsSpecified_transfer {i : Instr} {rA : Reg} {s u : State}
    (hiff : ∀ g, StopsBecause i s g ↔ g = .diskSectorOutOfRange ∧ s.disk.sectors ≤ (s.reg rA).toNat) :
    StopsAsSpecified i s
      (if s.disk.hasSector (s.reg rA).toNat then finish Config.defaultStep u else .fault .diskSectorOutOfRange) :=
  stopsAsSpecified_of_iff (fun h => if_neg (by rw [Disk.hasSector_iff]; omega))
    (fun h => ⟨_, if_pos (by rw [Disk.hasSector_iff]; omega)⟩) hiff

theorem stopsAsSpecified_exec (i : Instr) (s : State) : StopsAsSpecified i s (exec i s) := by
  cases i with
  | nop | add | sub | mul | out => exact stopsAsSpecified_next ⟨_, rfl⟩ (by rintro ⟨⟩ ⟨⟩)
  | mov rA rB =>
    obtain ⟨t, ht, -⟩ := finishAssign_assignsOnly rA (s.reg rB) s
    exact stopsAsSpecified_next ⟨t, ht⟩ (by rintro ⟨⟩ ⟨⟩)
  | movi rA v =>
    obtain ⟨t, ht, -⟩ := finishAssign_assignsOnly rA v s
    exact stopsAsSpecified_next ⟨t, ht⟩ (by rintro ⟨⟩ ⟨⟩)
  | div rA rB =>
    refine stopsAsSpecified_next ?_ (by rintro ⟨⟩ ⟨⟩)
    by_cases h : s.reg rB = 0#16
    · exact ⟨_, exec_div_of_eq_zero h⟩
    · exact ⟨_, exec_div_of_ne_zero h⟩
  | je rA rB rC =>
    obtain ⟨t, ht, -⟩ := branchIf_effect (s.reg rA = s.reg rB) (s.reg rC) s
    exact stopsAsSpecified_next ⟨t, ht⟩ (by rintro ⟨⟩ ⟨⟩)
  | jne rA rB rC =>
    obtain ⟨t, ht, -⟩ := branchIf_effect (s.reg rA ≠ s.reg rB) (s.reg rC) s
    exact stopsAsSpecified_next ⟨t, ht⟩ (by rintro ⟨⟩ ⟨⟩)
  | peek rA rB rC => exact stopsAsSpecified_peek rA rB rC s
  | poke rA rB rC => exact stopsAsSpecified_poke rA rB rC s
  | load | save => exact stopsAsSpecified_transfer fun g => by cases g <;> simp [StopsBecause]
  | pop rA =>
    refine stopsAsSpecified_of_iff exec_pop_wordAtTop (fun h => ?_) fun g => by cases g <;> simp [StopsBecause]
    obtain ⟨t, ht, -⟩ := finishAssign_assignsOnly rA (s.wordAt (s.reg 14)) (s.setReg 14 (s.reg 14 + 2#16))
    exact ⟨t, (exec_pop h).trans ht⟩
  | push rA =>
    exact stopsAsSpecified_of_iff exec_push_wordAtTop (fun h => ⟨_, exec_push h⟩)
      fun g => by cases g <;> simp [StopsBecause]

/-- Settles O24: what an instruction answers follows its conditions to stop, case by case. -/
theorem instructionsStopExactlyWhereTheSpecSays : Obligations.InstructionsStopExactlyWhereTheSpecSays :=
  ⟨fun i s => (stopsAsSpecified_exec i s).eq_fault_iff, fun i s => (stopsAsSpecified_exec i s).ne_refused⟩

end Sys2Proof.Machine
end

section
/-! What one instruction can do to each space, to the turns and to the run state, said once for all of them (10_state R27,
20_memory R47). -/

namespace Sys2Proof.Machine

open Sys2Proof.Safety

/-- A handler writes at most the space of its own instruction, and neither the run state nor the turns. -/
structure HandlerKeeps (i : Instr) (s u : State) : Prop where
  run : u.run = s.run
  turns : u.turns = s.turns
  mem : opcodeOf i ∉ [.poke, .push, .load] → u.mem = s.mem
  disk : opcodeOf i ≠ .save → u.disk = s.disk
  out : opcodeOf i ≠ .out → u.out = s.out

section handlers
variable (i : Instr) (s : State)

theorem handlerKeeps_refl : HandlerKeeps i s s := ⟨rfl, rfl, fun _ => rfl, fun _ => rfl, fun _ => rfl⟩

theorem handlerKeeps_setReg (r : Reg) (v : Word) : HandlerKeeps i s (s.setReg r v) :=
  ⟨rfl, rfl, fun _ => rfl, fun _ => rfl, fun _ => rfl⟩

theorem handlerKeeps_emit (rA rB : Reg) (p d : Word) : HandlerKeeps (.out rA rB) s (s.emit p d) :=
  ⟨rfl, rfl, fun _ => rfl, fun _ => rfl, fun h => absurd rfl h⟩

theorem handlerKeeps_storeAt (rA rB rC : Reg) (w : Access) (a v : Word) :
    HandlerKeeps (.poke rA rB rC) s (s.storeAt w a v) := by
  cases w <;> exact ⟨rfl, rfl, by simp [opcodeOf], fun _ => rfl, fun _ => rfl⟩

theorem handlerKeeps_sectorToMemory (rA rB : Reg) (n : Nat) (a : Word) :
    HandlerKeeps (.load rA rB) s (s.sectorToMemory n a) :=
  ⟨by simp, by simp, by simp [opcodeOf], by simp, by simp⟩

theorem handlerKeeps_memoryToSector (rA rB : Reg) (n : Nat) (a : Word) :
    HandlerKeeps (.save rA rB) s (s.memoryToSector n a) :=
  ⟨by simp, by simp, by simp, by simp [opcodeOf], by simp⟩

theorem handlerKeeps_push (rA r : Reg) (a v p : Word) : HandlerKeeps (.push rA) s ((s.setWord a v).setReg r p) :=
  ⟨rfl, rfl, by simp [opcodeOf], fun _ => rfl, fun _ => rfl⟩

end handlers

/-- Wherever the result is a state, it is one the handler may have left, or that one with the pc advanced by at most 3. -/
def EndsFrom (P : State → Prop) (r : Result) : Prop := ∀ t, r = .next t → ∃ u, P u ∧ (t = u ∨ ∃ n ≤ 3, t = u.advance n)

section ends
variable {P : State → Prop} {u : State}

theorem endsFrom_fault (f : Fault) : EndsFrom P (.fault f) := nofun

theorem endsFrom_finish {n : Nat} (hn : n ≤ 3) (h : P u) : EndsFrom P (finish n u) := by
  rintro _ ⟨⟩
  exact ⟨u, h, .inr ⟨n, hn, rfl⟩⟩

theorem endsFrom_finishJump (jumped : Bool) (h : P u) : EndsFrom P (finishJump jumped u) := by
  cases jumped with
  | true =>
    rintro _ ⟨⟩
    exact ⟨u, h, .inl rfl⟩
  | false => exact endsFrom_finish le_rfl h

theorem endsFrom_branchIf (taken : Bool) (target : Word) (hjump : P (u.setReg 15 target)) (hstay : P u) :
    EndsFrom P (branchIf taken target u) := by
  cases taken with
  | true => exact endsFrom_finishJump true hjump
  | false => exact endsFrom_finishJump false hstay

theorem endsFrom_guard {r : Result} (ok : Bool) (f : Fault) (h : EndsFrom P r) :
    EndsFrom P (if ok then r else .fault f) := by
  cases ok with
  | true => exact h
  | false => exact endsFrom_fault f

end ends

/-- What an instruction that ends in a state has done: a zero divisor halts it at once, and else its handler has written
its own space and the pc has perhaps advanced. -/
theorem exec_cases {i : Instr} {s t : State} (he : exec i s = .next t) :
    (∃ rA rB, i = .div rA rB ∧ s.reg rB = 0#16 ∧ t = s.halt .divideByZero) ∨
      ∃ u, HandlerKeeps i s u ∧ (t = u ∨ ∃ n ≤ 3, t = u.advance n) := by
  cases i with
  | div rA rB =>
    by_cases h : s.reg rB = 0#16
    · rw [exec_div_of_eq_zero h] at he
      cases he
      exact .inl ⟨rA, rB, rfl, h, rfl⟩
    · rw [exec_div_of_ne_zero h] at he
      exact .inr (endsFrom_finish le_rfl (handlerKeeps_setReg _ s _ _) t he)
  | nop => exact .inr (endsFrom_finish (by decide) (handlerKeeps_refl _ s) t he)
  | mov | movi => exact .inr (endsFrom_finishJump _ (handlerKeeps_setReg _ s _ _) t he)
  | add | sub | mul => exact .inr (endsFrom_finish le_rfl (handlerKeeps_setReg _ s _ _) t he)
  | out => exact .inr (endsFrom_finish le_rfl (handlerKeeps_emit s ..) t he)
  | je | jne => exact .inr (endsFrom_branchIf _ _ (handlerKeeps_setReg _ s _ _) (handlerKeeps_refl _ s) t he)
  | peek =>
    rw [exec, execPeek] at he
    split at he
    · cases he
    · exact .inr (endsFrom_guard _ _ (endsFrom_finish le_rfl (handlerKeeps_setReg _ s _ _)) t he)
  | poke =>
    rw [exec, execPoke] at he
    split at he
    · cases he
    · exact .inr (endsFrom_guard _ _ (endsFrom_finish le_rfl (handlerKeeps_storeAt s ..)) t he)
  | load => exact .inr (endsFrom_guard _ _ (endsFrom_finish le_rfl (handlerKeeps_sectorToMemory s ..)) t he)
  | save => exact .inr (endsFrom_guard _ _ (endsFrom_finish le_rfl (handlerKeeps_memoryToSector s ..)) t he)
  | pop =>
    refine .inr (endsFrom_guard _ _ (endsFrom_finishJump _ ?_) t he)
    exact ⟨rfl, rfl, fun _ => rfl, fun _ => rfl, fun _ => rfl⟩
  | push => exact .inr (endsFrom_guard _ _ (endsFrom_finish le_rfl (handlerKeeps_push s ..)) t he)

/-- Settles O39: the halt and the advance touch none of these spaces, so what the handler keeps the instruction keeps. -/
theorem eachSpaceIsWrittenByItsOwnInstructions : Obligations.EachSpaceIsWrittenByItsOwnInstructions := by
  intro i s t he
  obtain ⟨rA, rB, -, -, rfl⟩ | ⟨u, ⟨-, hturns, hmem, hdisk, hout⟩, rfl | ⟨n, -, rfl⟩⟩ := exec_cases he
  · exact ⟨fun _ => rfl, fun _ => rfl, fun _ => rfl, rfl⟩
  · exact ⟨hmem, hdisk, hout, hturns⟩
  · rw [advance_mem, advance_disk, advance_out, advance_turns]
    exact ⟨hmem, hdisk, hout, hturns⟩

end Sys2Proof.Machine
end

section
/-! The cycle and the turns of the agents (40_cycle R100 to R112, 60_exceptions R190, R196, R199): what a step is in each
case. -/

namespace Sys2Proof.Machine

open Sys2Proof.Safety

section cycles
variable {s : State} {rest : List Turn}

theorem fetchable_iff (a : Word) : fetchable a = true ↔ a.toNat ≤ 0xFFFD := decide_eq_true_iff

theorem cycle_of_instrAt {i : Instr} (hpc : s.pc.toNat ≤ 0xFFFD) (hi : s.instrAt s.pc = some i) : cycle s = exec i s := by
  simp [cycle, (fetchable_iff _).mpr hpc, hi]

theorem cycle_of_gt (hpc : 0xFFFD < s.pc.toNat) : cycle s = .next (s.halt .pcOutOfBounds) :=
  if_neg (by rw [fetchable_iff]; omega)

/-- A cycle is the meaning of the instruction at the pc or the halt of the fetch bound, since every three bytes decode. -/
theorem cycle_cases (s : State) :
    (∃ i, s.instrAt s.pc = some i ∧ s.pc.toNat ≤ 0xFFFD ∧ cycle s = exec i s) ∨
      (0xFFFD < s.pc.toNat ∧ cycle s = .next (s.halt .pcOutOfBounds)) := by
  rcases Nat.lt_or_ge 0xFFFD s.pc.toNat with h | h
  · exact .inr ⟨h, cycle_of_gt h⟩
  · obtain ⟨i, hi⟩ : ∃ i, s.instrAt s.pc = some i := exists_decodeBytes _ _ _
    exact .inl ⟨i, hi, h, cycle_of_instrAt h hi⟩

theorem step_of_not_running (h : s.run ≠ .running) : step s = .fault .noCycle := by
  cases hrun : s.run with
  | running => exact absurd hrun h
  | halted c => simp [step, takeTurn, hrun]
  | stopped => simp [step, takeTurn, hrun]

theorem setTurns_self (h : s.turns = rest) : s.setTurns rest = s := by
  subst h
  rfl

theorem step_of_cpuMoves (h : CpuMoves s rest) : step s = cycle (s.setTurns rest) := by
  obtain ⟨hrun, hturns | ⟨hturns, rfl⟩⟩ := h
  · simp [step, takeTurn, hrun, hturns]
  · rw [setTurns_self hturns]
    simp [step, takeTurn, hrun, hturns]

theorem step_of_key {code : Byte} (hrun : s.run = .running) (hturns : s.turns = .key code :: rest) :
    step s = .next ((s.setTurns rest).keyEvent code) := by
  simp [step, takeTurn, hrun, hturns]

theorem step_of_quit (hrun : s.run = .running) (hturns : s.turns = .quit :: rest) :
    step s = .next (s.setTurns rest).quit := by
  simp [step, takeTurn, hrun, hturns]

end cycles

/-- Settles O27: a halted machine is not running. -/
theorem aHaltedMachineNeverMoves : Obligations.AHaltedMachineNeverMoves := by
  intro s c hrun
  have hstep : step s = .fault .noCycle := step_of_not_running (by simp [hrun])
  exact ⟨fun t => by simp [hstep], hstep⟩

/-- Settles O28: using up a turn moves neither the pc nor the bytes at it. -/
theorem aStepRunsTheDecodedInstruction : Obligations.AStepRunsTheDecodedInstruction := by
  intro s rest i hcpu hpc hi
  rw [step_of_cpuMoves hcpu]
  exact cycle_of_instrAt (s := s.setTurns rest) hpc hi

/-- Settles O29: the bound is tested before the fetch, and the halt writes only the run state. -/
theorem aFetchOutOfBoundsHalts : Obligations.AFetchOutOfBoundsHalts := by
  intro s rest hcpu hpc
  rw [step_of_cpuMoves hcpu, cycle_of_gt (s := s.setTurns rest) hpc]
  exact ⟨_, rfl, halt_run .., fun _ => rfl, fun _ => rfl, rfl, rfl⟩

/-- Settles O30: the turn is one byte written to the latch. -/
theorem aKeyWritesOnlyTheLatch : Obligations.AKeyWritesOnlyTheLatch := by
  intro s code rest hrun hturns
  refine ⟨_, step_of_key hrun hturns, ?_, fun q hq => ?_, fun _ => rfl, rfl, rfl, hrun, rfl⟩
  · rw [byteAt_keyEvent, if_pos rfl]
  · rw [byteAt_keyEvent, if_neg hq, byteAt_setTurns]

/-- Settles O31: the turn writes only the run state, and a stopped machine is not running. -/
theorem aQuitStopsTheRunForGood : Obligations.AQuitStopsTheRunForGood := by
  intro s rest hrun hturns
  exact ⟨_, step_of_quit hrun hturns, quit_run _, fun _ => rfl, fun _ => rfl, rfl, rfl, step_of_not_running (by simp)⟩

/-! ### The output channel -/

theorem exists_out_of_opcodeOf {i : Instr} (h : opcodeOf i = .out) : ∃ rA rB, i = .out rA rB := by
  cases i with
  | out rA rB => exact ⟨rA, rB, rfl⟩
  | _ => cases h

/-- `t` has the events of `s` and at most one more. -/
def AtMostOneMoreEvent (s t : State) : Prop := t.out = s.out ∨ ∃ e, t.out = s.out ++ [e]

theorem atMostOneMoreEvent_exec {i : Instr} {s t : State} (he : exec i s = .next t) : AtMostOneMoreEvent s t := by
  by_cases h : opcodeOf i = .out
  · obtain ⟨rA, rB, rfl⟩ := exists_out_of_opcodeOf h
    cases he
    exact .inr ⟨_, advance_out ..⟩
  · obtain ⟨-, -, hout, -⟩ := eachSpaceIsWrittenByItsOwnInstructions i s t he
    exact .inl (hout h)

theorem atMostOneMoreEvent_cycle {s t : State} (he : cycle s = .next t) : AtMostOneMoreEvent s t := by
  obtain ⟨i, -, -, hc⟩ | ⟨-, hc⟩ := cycle_cases s
  · exact atMostOneMoreEvent_exec (hc ▸ he)
  · cases hc.symm.trans he
    exact .inl rfl

/-- Settles O37: `out` alone writes the channel, and the other agents' moves leave it as it is. -/
theorem outputIsAppendOnly : Obligations.OutputIsAppendOnly := by
  intro s t he
  obtain ⟨-, ⟨-, hc⟩ | ⟨rest, -, hc⟩ | ⟨code, rest, -, rfl⟩ | ⟨rest, -, rfl⟩⟩ := step_cases he
  · exact atMostOneMoreEvent_cycle hc
  · exact atMostOneMoreEvent_cycle (s := s.setTurns rest) hc
  · exact .inl rfl
  · exact .inl rfl

end Sys2Proof.Machine
end

section
/-! The halts of a step: their causes (60_exceptions R182, R183) and what they leave unchanged (R185, R186). -/

namespace Sys2Proof.Machine

open Sys2Proof.Safety

/-- From a running state an instruction halts by a zero divisor, at once, or by an advance that leaves 16 bits. -/
theorem exec_halted {i : Instr} {s t : State} {c : HaltCause} (hrun : s.run = .running) (he : exec i s = .next t)
    (hc : t.run = .halted c) :
    (c = .divideByZero ∧ t = s.halt c ∧ ∃ rA rB, i = .div rA rB ∧ s.reg rB = 0#16) ∨
      (c = .pcOutOfBounds ∧ 0xFFFF < t.pc.toNat + 3) := by
  obtain ⟨rA, rB, rfl, hzero, rfl⟩ | ⟨u, hkeeps, ht⟩ := exec_cases he
  · cases hc
    exact .inl ⟨rfl, rfl, rA, rB, rfl, hzero⟩
  · have hu : u.run ≠ .halted c := by simp [hkeeps.run, hrun]
    obtain rfl | ⟨n, hn, rfl⟩ := ht
    · exact absurd hc hu
    · rcases Nat.lt_or_ge 0xFFFF (u.pc.toNat + n) with h | h
      · rw [advance_of_gt h] at hc ⊢
        cases hc
        refine .inr ⟨rfl, ?_⟩
        rw [pc_congr (halt_regs ..)]
        omega
      · rw [advance_of_le h] at hc
        exact absurd hc hu

/-- What a cycle that halts has done: the halt alone, by a zero divisor or at the fetch, or an instruction whose advance
leaves 16 bits. -/
theorem cycle_halted {s t : State} {c : HaltCause} (hrun : s.run = .running) (he : cycle s = .next t)
    (hc : t.run = .halted c) :
    (c = .divideByZero ∧ t = s.halt c ∧ ∃ rA rB, s.instrAt s.pc = some (.div rA rB) ∧ s.reg rB = 0#16) ∨
      (c = .pcOutOfBounds ∧ t = s.halt c ∧ 0xFFFD < s.pc.toNat) ∨
      (c = .pcOutOfBounds ∧ s.pc.toNat ≤ 0xFFFD ∧ 0xFFFF < t.pc.toNat + 3) := by
  obtain ⟨i, hi, hpc, hcycle⟩ | ⟨hpc, hcycle⟩ := cycle_cases s
  · obtain ⟨rfl, ht, rA, rB, rfl, hzero⟩ | ⟨rfl, htop⟩ := exec_halted hrun (hcycle ▸ he) hc
    · exact .inl ⟨rfl, ht, rA, rB, hi, hzero⟩
    · exact .inr (.inr ⟨rfl, hpc, htop⟩)
  · cases hcycle.symm.trans he
    cases hc
    exact .inr (.inl ⟨rfl, rfl, hpc⟩)

/-- Only the CPU's move halts the machine. -/
theorem cycle_of_step_halted {s t : State} {c : HaltCause} (he : step s = .next t) (hc : t.run = .halted c) :
    s.run = .running ∧ ∃ rest, cycle (s.setTurns rest) = .next t := by
  obtain ⟨hrun, ⟨hturns, hcycle⟩ | ⟨rest, -, hcycle⟩ | ⟨code, rest, -, rfl⟩ | ⟨rest, -, rfl⟩⟩ := step_cases he
  · exact ⟨hrun, [], by rwa [setTurns_self hturns]⟩
  · exact ⟨hrun, rest, hcycle⟩
  · simp [hrun] at hc
  · simp at hc

/-- Settles O25: the three ways a cycle halts, read at the state before the turn was used up. -/
theorem everyHaltHasItsCause : Obligations.EveryHaltHasItsCause := by
  intro s t c he hc
  obtain ⟨hrun, rest, hcycle⟩ := cycle_of_step_halted he hc
  obtain ⟨rfl, -, hdiv⟩ | ⟨rfl, -, hfetch⟩ | ⟨rfl, -, htop⟩ := cycle_halted (s := s.setTurns rest) hrun hcycle hc
  · exact .inl ⟨rfl, hdiv⟩
  · exact .inr (.inl ⟨rfl, hfetch⟩)
  · exact .inr (.inr ⟨rfl, htop⟩)

theorem haltRecord_of_halted {s : State} {c : HaltCause} (h : s.run = .halted c) :
    s.haltRecord = some { cause := c, regs := s.regs, latch := s.byteAt Config.keyboardAddress } := by
  simp only [State.haltRecord, h]

/-- Settles O26: the record is read from the halted state; a zero divisor and the fetch bound halt by `State.halt` alone,
which writes only the run state. -/
theorem haltsAreRecordedAndPrecise : Obligations.HaltsAreRecordedAndPrecise := by
  intro s t c he hc
  refine ⟨haltRecord_of_halted hc, fun hprecise => ?_⟩
  obtain ⟨hrun, rest, hcycle⟩ := cycle_of_step_halted he hc
  have hhalt : t = (s.setTurns rest).halt c := by
    obtain ⟨-, ht, -⟩ | ⟨-, ht, -⟩ | ⟨rfl, hpc, -⟩ := cycle_halted (s := s.setTurns rest) hrun hcycle hc
    · exact ht
    · exact ht
    · rw [pc_setTurns] at hpc
      obtain h | h := hprecise
      · cases h
      · omega
  subst hhalt
  exact ⟨rfl, fun _ => rfl, rfl, rfl⟩

end Sys2Proof.Machine
end

section
/-! Steps that depend on what memory holds at the pc: a store over the next instruction (20_memory R61), and the slide over
zeroed memory (41_move R120, 70_reset R216). -/

namespace Sys2Proof.Machine

open Sys2Proof.Safety

theorem step_of_instrAt {s : State} {i : Instr} (hrun : s.run = .running) (hturns : s.turns = [])
    (hpc : s.pc.toNat ≤ 0xFFFD) (hi : s.instrAt s.pc = some i) : step s = exec i s := by
  rw [step_of_cpuMoves ⟨hrun, .inr ⟨hturns, rfl⟩⟩, setTurns_self hturns]
  exact cycle_of_instrAt hpc hi

/-! ### A store over the next instruction -/

/-- The instruction at an address whose first byte has been written: the write does not reach the two bytes after it. -/
theorem instrAt_setByte_same (s : State) (a : Word) (b : Byte) :
    (s.setByte a b).instrAt a = decodeBytes b (s.byteAt (a + 1#16)) (s.byteAt (a + 2#16)) := by
  simp [State.instrAt]

theorem instrAt_congr {s t : State} (h : t.mem = s.mem) (a : Word) : t.instrAt a = s.instrAt a := by
  simp only [State.instrAt, byteAt_congr h]

/-- Settles O17: the poke leaves the pc at the byte it has written, and the next fetch reads that byte. -/
theorem aStoreIsSeenByTheNextFetch : Obligations.AStoreIsSeenByTheNextFetch := by
  intro rA rB rC s t i hrun hturns hmode hpc haddr hpoke hi
  rw [exec_poke_byte hmode] at hpoke
  cases hpoke
  obtain ⟨htpc, htrun⟩ := pc_run_advance_of_fits (setByte_regs s (s.reg rB) (lowByte (s.reg rA)))
    (setByte_run ..) (by omega)
  refine step_of_instrAt (htrun.trans hrun) (by rw [advance_turns, setByte_turns, hturns]) (by bv_omega) ?_
  rw [htpc, instrAt_congr (advance_mem ..), haddr, instrAt_setByte_same, lowByte_eq_ofNat, BitVec.add_assoc,
    BitVec.add_assoc]
  exact hi

/-! ### The slide over zeroed memory -/

section trans
variable {s t u : State}

theorem sameRegisters_trans (h : SameRegisters s t) (h' : SameRegisters t u) : SameRegisters s u :=
  fun r hr => (h' r hr).trans (h r hr)

theorem sameMemory_trans (h : SameMemory s t) (h' : SameMemory t u) : SameMemory s u :=
  fun a => (h' a).trans (h a)

theorem sameDevices_trans (h : SameDevices s t) (h' : SameDevices t u) : SameDevices s u := by
  obtain ⟨hdisk, hout, hturns⟩ := h
  obtain ⟨hdisk', hout', hturns'⟩ := h'
  exact ⟨hdisk'.trans hdisk, hout'.trans hout, hturns'.trans hturns⟩

end trans

/-- Opcode 0 is the no-op, so zeroed memory holds a no-op at every address. -/
theorem instrAt_of_zeroed {s : State} (hzero : ∀ a : Word, s.byteAt a = 0#8) (a : Word) : s.instrAt a = some .nop := by
  simp only [State.instrAt, hzero]
  rfl

theorem step_of_zeroed {s : State} (hrun : s.run = .running) (hturns : s.turns = [])
    (hzero : ∀ a : Word, s.byteAt a = 0#8) (hpc : s.pc.toNat ≤ 0xFFFD) : step s = .next (s.advance 1) :=
  (step_of_instrAt hrun hturns hpc (instrAt_of_zeroed hzero _)).trans (exec_nop s)

theorem run_succ {s s' : State} (h : step s = .next s') (k : Nat) :
    Sys2Proof.core.run (k + 1) s = Sys2Proof.core.run k s' := by
  have h : Sys2Proof.core.step s = .next s' := h
  simp only [Host.Core.run, h]

/-- Settles O32, by induction on the number of steps: one step leaves a state that meets the hypotheses, with the pc one
higher and one step fewer to go. -/
theorem zeroedMemoryIsANoopSlide : Obligations.ZeroedMemoryIsANoopSlide := by
  intro s k
  induction k generalizing s with
  | zero => exact fun hrun _ _ _ => ⟨s, rfl, rfl, hrun, fun _ _ => rfl, fun _ => rfl, rfl, rfl, rfl⟩
  | succ k ih =>
    intro hrun hturns hzero hpc
    obtain ⟨hmoves, hgoesOn⟩ := (advance_pcMoves s 1).1 (by omega)
    obtain ⟨t, ht, htpc, htrun, hregs, hmem, hdev⟩ := ih (s.advance 1) (hgoesOn.trans hrun)
      ((advance_turns s 1).trans hturns) (fun a => (byteAt_advance s 1 a).trans (hzero a)) (by omega)
    refine ⟨t, ?_, by omega, htrun, sameRegisters_trans (sameRegisters_advance s 1) hregs,
      sameMemory_trans (sameMemory_advance s 1) hmem, sameDevices_trans (sameDevices_advance s 1) hdev⟩
    rw [run_succ (step_of_zeroed hrun hturns hzero (by omega)), ht]

end Sys2Proof.Machine
end

section
/-! The opcode table (30_encoding R70 to R81): each nibble's row, at every operand and every ignored bit. -/

namespace Sys2Proof

open Sys2Proof.Machine

section rows
variable (o : Opcode) (a b c : Reg) (b2 b3 : Byte)

/-- The row of an opcode, whatever bytes follow its own. -/
theorem decodeBytes_row : decodeBytes (joinNibbles (nibbleOfOpcode o) a) b2 b3 =
    some (assemble o { rA := a, rB := highNibble b2, rC := lowNibble b2, imm16 := joinBytes b2 b3 }) := by
  rw [decodeBytes_joinNibbles, fieldsOf, lowNibble_joinNibbles]

/-- The row of an opcode with its registers in byte 2. -/
theorem decodeBytes_row_registers : decodeBytes (joinNibbles (nibbleOfOpcode o) a) (joinNibbles b c) b3 =
    some (assemble o { rA := a, rB := b, rC := c, imm16 := joinBytes (joinNibbles b c) b3 }) := by
  rw [decodeBytes_joinNibbles, fieldsOf_registers]

end rows

/-- Settles O2: the nibble the table gives an opcode is the one the decoder's map gives it, and the row keeps of the fields
the ones it uses. -/
theorem everyOpcodeNibbleDecodesToItsRow : Obligations.EveryOpcodeNibbleDecodesToItsRow := by
  intro a b c b2 b3
  exact ⟨decodeBytes_row .nop a b2 b3,
    decodeBytes_row_registers .mov a b c b3,
    decodeBytes_row .movi a b2 b3,
    decodeBytes_row_registers .add a b c b3,
    decodeBytes_row_registers .sub a b c b3,
    decodeBytes_row_registers .mul a b c b3,
    decodeBytes_row_registers .div a b c b3,
    decodeBytes_row_registers .out a b c b3,
    decodeBytes_row_registers .je a b c b3,
    decodeBytes_row_registers .jne a b c b3,
    decodeBytes_row_registers .peek a b c b3,
    decodeBytes_row_registers .poke a b c b3,
    decodeBytes_row_registers .load a b c b3,
    decodeBytes_row_registers .save a b c b3,
    decodeBytes_row .pop a b2 b3,
    decodeBytes_row .push a b2 b3⟩

/-- Settles O4: the eight words, evaluated. -/
theorem specExampleWordsDecode : Obligations.SpecExampleWordsDecode := by
  unfold Obligations.SpecExampleWordsDecode
  decide

end Sys2Proof
end
